-- ==== Sys2Proof/Word.lean ====
section
/-! DEFINITION. The word types of the core (spec/00_scope.md R7, R10; spec/10_state.md R20).

Register contents, addresses while they are computed, instruction words and immediates are bit vectors, because the
manual adds, masks and shifts them. Register and key numbers are `Fin 16`: they are indexes, never computed with. -/

namespace Sys2Proof

/-- A V register, a timer, a memory byte: 8 bits (R7, `XLEN`). -/
abbrev Byte := BitVec 8

/-- I, PC, a stack entry, an instruction word: 16 bits (R7, `ILEN`). -/
abbrev Word := BitVec 16

/-- The 12-bit address immediate `nnn` (R82). -/
abbrev Imm12 := BitVec 12

/-- The index of a V register: a 4-bit field, "guaranteed in range (0–15)" (R21). -/
abbrev RegIx := Fin 16

/-- The number of a key, 0..15 (R31, R182). -/
abbrev KeyIx := Fin 16

/-- The sixteen key-down flags, `true` is down (R31). -/
abbrev Keys := Vector Bool 16

/-- The display, `px[r][c]`: 32 rows of 64 pixels, `true` is set (R30). -/
abbrev Display := Vector (Vector Bool 64) 32

/-- The content of the glyph table, the parameter `GLYPH`: 80 bytes (R8, R57). -/
abbrev Font := Vector Byte 80

/-- VF, "the 16th general register" (R15, R22). -/
abbrev vf : RegIx := 15

end Sys2Proof
end

