-- ==== Sys2Proof/Config.lean ====
section
/-! DEFINITION. What is fixed for the machine (spec/00_scope.md R7, R8) and the free values of the model. -/

namespace Sys2Proof

/-- `MEM_SIZE`: bytes of memory, addresses 0..4095 (R7, R29). -/
@[simp] abbrev Config.memSize : Nat := 4096

/-- `GLYPH_SIZE`: addresses 0..79 hold the glyph table (R7, R55). -/
@[simp] abbrev Config.glyphSize : Nat := 80

/-- `STACK_DEPTH`: stack entries (R7, R27). -/
@[simp] abbrev Config.stackDepth : Nat := 16

/-- `PROG_BASE`: address where `load` puts the first program byte (R7, R243). -/
@[simp] abbrev Config.progBase : Nat := 0x200

/-- `PROG_MAX`: most bytes `load` accepts, 4096 - 0x200 (R7, R243). -/
@[simp] abbrev Config.progMax : Nat := 3584

/-- `GLYPH_STRIDE`: bytes per glyph (R7, R154). -/
@[simp] abbrev Config.glyphStride : Nat := 5

/-- `INSTR_BYTES`: every instruction is 2 bytes (R7, R80). -/
@[simp] abbrev Config.instrBytes : Word := 2

/-- `TIMER_HZ`: the intended rate of `tick_timer`; "no rule depends on it" (R7, R221) and nothing in the model reads it. -/
abbrev Config.timerHz : Nat := 60

/-- `PC_RESET` = 0x200 (R24, R37). DESIGN CHOICE of the spec (decision D2, conflict C3), unsafe: entry 1. -/
@[simp] abbrev Config.pcReset : Word := 0x200

/-- Glyphs 0 to 7 of the default font of R57. -/
def Config.glyphsLow : List Byte :=
  [0xF0, 0x90, 0x90, 0x90, 0xF0] ++ [0x20, 0x60, 0x20, 0x20, 0x70] ++
  [0xF0, 0x10, 0xF0, 0x80, 0xF0] ++ [0xF0, 0x10, 0xF0, 0x10, 0xF0] ++
  [0x90, 0x90, 0xF0, 0x10, 0x10] ++ [0xF0, 0x80, 0xF0, 0x10, 0xF0] ++
  [0xF0, 0x80, 0xF0, 0x90, 0xF0] ++ [0xF0, 0x10, 0x20, 0x40, 0x40]

/-- Glyphs 8 to F of the default font of R57. -/
def Config.glyphsHigh : List Byte :=
  [0xF0, 0x90, 0xF0, 0x90, 0xF0] ++ [0xF0, 0x90, 0xF0, 0x10, 0xF0] ++
  [0xF0, 0x90, 0xF0, 0x90, 0x90] ++ [0xE0, 0x90, 0xE0, 0x90, 0xE0] ++
  [0xF0, 0x80, 0x80, 0x80, 0xF0] ++ [0xE0, 0x90, 0xE0, 0x90, 0xE0] ++
  [0xF0, 0x80, 0xF0, 0x80, 0xF0] ++ [0xF0, 0x80, 0xF0, 0x80, 0x80]

/-- The default of the open parameter `GLYPH` (R8, R57). The parameter itself is the argument `font` of `State.resetWith`
and of the caller's operations; this is the font `State.reset` has. PRESUMED, from general knowledge (decision D6, N2);
unsafe for claims about the shapes of glyphs after `State.reset`: entry 2. -/
def Config.defaultFont : Font := ⟨(Config.glyphsLow ++ Config.glyphsHigh).toArray, rfl⟩

/-- FREE VALUE (R171, decision D10, U7): the random byte of the k-th draw that no caller supplied. No body: nothing is
known of it, no law binds successive draws. Safe: entry 3. -/
opaque Config.freeDraw : Nat → Byte

/-- FREE VALUE (R186, decision D9, U8): the key `KEY_PICK` prefers when several keys are down, as a function of the
key flags. `pickKey` keeps the bound the manual sets: the answer is a key that is down. Safe: entry 4. -/
opaque Config.keyChoice : Keys → KeyIx

end Sys2Proof
end

