-- ==== Sys2Proof/Syntax.lean ====
section
/-! DEFINITION. The instructions: one constructor per row of spec/opcode_table.json, in the order of
spec/30_encoding.md R86. Operand fields are those of R82: `x`, `y` register indexes, `n` a count of rows, `nn` an
8-bit and `nnn` a 12-bit unsigned immediate (R84). -/

namespace Sys2Proof

/-- An instruction of the CHIP-8 core (R86). The ignored `y` nibble of 8x-6 and 8x-E is no operand (R89). -/
inductive Instr where
  /-- 0000 NOP (R104). -/
  | nop
  /-- 00EE RET (R105). -/
  | ret
  /-- 1nnn JP nnn (R106). -/
  | jp (nnn : Imm12)
  /-- 2nnn CALL nnn (R107). -/
  | call (nnn : Imm12)
  /-- 3xnn SE Vx, nn (R120). -/
  | seImm (x : RegIx) (nn : Byte)
  /-- 4xnn SNE Vx, nn (R121). -/
  | sneImm (x : RegIx) (nn : Byte)
  /-- 5xy0 SE Vx, Vy (R122). -/
  | seReg (x y : RegIx)
  /-- 6xnn LD Vx, nn (R130). -/
  | ldImm (x : RegIx) (nn : Byte)
  /-- 7xnn ADD Vx, nn (R131). -/
  | addImm (x : RegIx) (nn : Byte)
  /-- 8xy0 LD Vx, Vy (R132). -/
  | ldReg (x y : RegIx)
  /-- 8xy1 OR Vx, Vy (R133). -/
  | orReg (x y : RegIx)
  /-- 8xy2 AND Vx, Vy (R134). -/
  | andReg (x y : RegIx)
  /-- 8xy3 XOR Vx, Vy (R135). -/
  | xorReg (x y : RegIx)
  /-- 8xy4 ADD Vx, Vy (R136). -/
  | addReg (x y : RegIx)
  /-- 8xy5 SUB Vx, Vy (R137). -/
  | sub (x y : RegIx)
  /-- 8x-6 SHR Vx (R138). -/
  | shr (x : RegIx)
  /-- 8xy7 SUBN Vx, Vy (R139). -/
  | subn (x y : RegIx)
  /-- 8x-E SHL Vx (R140). -/
  | shl (x : RegIx)
  /-- 9xy0 SNE Vx, Vy (R123). -/
  | sneReg (x y : RegIx)
  /-- Annn LD I, nnn (R150). -/
  | ldI (nnn : Imm12)
  /-- Bnnn JP V0, nnn (R108). -/
  | jpV0 (nnn : Imm12)
  /-- Cxnn RND Vx, nn (R170). -/
  | rnd (x : RegIx) (nn : Byte)
  /-- Dxyn DRW Vx, Vy, n (R172); `n` is a sprite height, 0..15. -/
  | drw (x y : RegIx) (n : Nat)
  /-- Ex9E SKP Vx (R180). -/
  | skp (x : RegIx)
  /-- ExA1 SKNP Vx (R181). -/
  | sknp (x : RegIx)
  /-- Fx07 LD Vx, DT (R183). -/
  | ldVxDt (x : RegIx)
  /-- Fx0A LD Vx, K (R184). -/
  | ldVxK (x : RegIx)
  /-- Fx15 LD DT, Vx (R187). -/
  | ldDtVx (x : RegIx)
  /-- Fx18 LD ST, Vx (R188). -/
  | ldStVx (x : RegIx)
  /-- Fx1E ADD I, Vx (R152). -/
  | addI (x : RegIx)
  /-- Fx29 LD F, Vx (R154). -/
  | ldF (x : RegIx)
  /-- Fx33 LD B, Vx (R156). -/
  | ldB (x : RegIx)
  /-- Fx55 LD [I], Vx (R158). -/
  | storeRegs (x : RegIx)
  /-- Fx65 LD Vx, [I] (R160). -/
  | loadRegs (x : RegIx)
  deriving DecidableEq, Repr

end Sys2Proof
end

