-- ==== Sys2Proof/WellFormed.lean ====
section
/-! DEFINITION. Which instructions the encoding can express (spec/30_encoding.md R82, R84). Register indexes and the
immediates `nn`, `nnn` are in range by their types; the one operand that is a plain number is the sprite height `n`, a
4-bit count 0..15. -/

namespace Sys2Proof

/-- The sprite height fits its 4-bit field (R82, R84). -/
def heightOk (n : Nat) : Bool := n < 16

/-- Every operand is one the instruction's encoding can hold. -/
def WellFormed : Instr → Bool
  | .drw _ _ n => heightOk n
  | .nop | .ret | .jp _ | .call _ | .seImm _ _ | .sneImm _ _ | .seReg _ _ | .ldImm _ _ | .addImm _ _ | .ldReg _ _
  | .orReg _ _ | .andReg _ _ | .xorReg _ _ | .addReg _ _ | .sub _ _ | .shr _ | .subn _ _ | .shl _ | .sneReg _ _
  | .ldI _ | .jpV0 _ | .rnd _ _ | .skp _ | .sknp _ | .ldVxDt _ | .ldVxK _ | .ldDtVx _ | .ldStVx _ | .addI _ | .ldF _
  | .ldB _ | .storeRegs _ | .loadRegs _ => true

end Sys2Proof
end

