-- ==== Sys2Proof/Decode.lean ====
section
/-! DEFINITION. Decoding and encoding (spec/30_encoding.md). The decoder dispatches on the tuple of nibbles
(d1, d2, d3, d4) as R81 says; the opcode table of R86 (spec/opcode_table.json) stands beside it as data, and the
statements say that the two agree. -/

namespace Sys2Proof

/-! ### Fields of a word (R81, R82) -/

/-- d1 = w[15:12] (R81). -/
def d1 (w : Word) : BitVec 4 := w.extractLsb' 12 4
/-- d2 = w[11:8] (R81). -/
def d2 (w : Word) : BitVec 4 := w.extractLsb' 8 4
/-- d3 = w[7:4] (R81). -/
def d3 (w : Word) : BitVec 4 := w.extractLsb' 4 4
/-- d4 = w[3:0] (R81). -/
def d4 (w : Word) : BitVec 4 := w.extractLsb' 0 4
/-- nn = w[7:0] (R82). -/
def fieldNN (w : Word) : Byte := w.extractLsb' 0 8
/-- nnn = w[11:0] (R82). -/
def fieldNNN (w : Word) : Imm12 := w.extractLsb' 0 12

/-- A 4-bit field as a register index (R82, R84: unsigned, 0..15). -/
def regOf (b : BitVec 4) : RegIx := Fin.ofNat 16 b.toNat
/-- x = d2 (R82). -/
def fieldX (w : Word) : RegIx := regOf (d2 w)
/-- y = d3 (R82). -/
def fieldY (w : Word) : RegIx := regOf (d3 w)
/-- n = d4 (R82). -/
def fieldN (w : Word) : Nat := (d4 w).toNat

/-! ### The decoder -/

/-- Why bytes are not an instruction. -/
inductive DecodeReject where
  /-- The word matches no row of R86; executing it raises InvalidOpcode(w) (R88). -/
  | invalidOpcode (w : Word)
  /-- Fewer than the two bytes every instruction has (R80); a fetch always supplies two. -/
  | truncated (bytes : Nat)
  deriving DecidableEq, Repr

/-- Group 0: only 0000 and 00EE (R86, R88). -/
def decodeGroup0 (w : Word) : Option Instr :=
  match w.toNat with
  | 0x0000 => some .nop
  | 0x00EE => some .ret
  | _ => none

/-- Group 8: the two-register ALU instructions, selected by d4; d3 is ignored for 6 and E (R86, R89). -/
def decodeGroup8 (w : Word) : Option Instr :=
  match (d4 w).toNat with
  | 0x0 => some (.ldReg (fieldX w) (fieldY w))
  | 0x1 => some (.orReg (fieldX w) (fieldY w))
  | 0x2 => some (.andReg (fieldX w) (fieldY w))
  | 0x3 => some (.xorReg (fieldX w) (fieldY w))
  | 0x4 => some (.addReg (fieldX w) (fieldY w))
  | 0x5 => some (.sub (fieldX w) (fieldY w))
  | 0x6 => some (.shr (fieldX w))
  | 0x7 => some (.subn (fieldX w) (fieldY w))
  | 0xE => some (.shl (fieldX w))
  | _ => none

/-- Group E: the key skips, selected by the low byte (R86). -/
def decodeGroupE (w : Word) : Option Instr :=
  match (fieldNN w).toNat with
  | 0x9E => some (.skp (fieldX w))
  | 0xA1 => some (.sknp (fieldX w))
  | _ => none

/-- Group F: selected by the low byte (R86). -/
def decodeGroupF (w : Word) : Option Instr :=
  match (fieldNN w).toNat with
  | 0x07 => some (.ldVxDt (fieldX w))
  | 0x0A => some (.ldVxK (fieldX w))
  | 0x15 => some (.ldDtVx (fieldX w))
  | 0x18 => some (.ldStVx (fieldX w))
  | 0x1E => some (.addI (fieldX w))
  | 0x29 => some (.ldF (fieldX w))
  | 0x33 => some (.ldB (fieldX w))
  | 0x55 => some (.storeRegs (fieldX w))
  | 0x65 => some (.loadRegs (fieldX w))
  | _ => none

/-- The opcode map of R86, dispatched on d1. -/
def decodeFields (w : Word) : Option Instr :=
  match (d1 w).toNat with
  | 0x0 => decodeGroup0 w
  | 0x1 => some (.jp (fieldNNN w))
  | 0x2 => some (.call (fieldNNN w))
  | 0x3 => some (.seImm (fieldX w) (fieldNN w))
  | 0x4 => some (.sneImm (fieldX w) (fieldNN w))
  | 0x5 => if d4 w = 0 then some (.seReg (fieldX w) (fieldY w)) else none
  | 0x6 => some (.ldImm (fieldX w) (fieldNN w))
  | 0x7 => some (.addImm (fieldX w) (fieldNN w))
  | 0x8 => decodeGroup8 w
  | 0x9 => if d4 w = 0 then some (.sneReg (fieldX w) (fieldY w)) else none
  | 0xA => some (.ldI (fieldNNN w))
  | 0xB => some (.jpV0 (fieldNNN w))
  | 0xC => some (.rnd (fieldX w) (fieldNN w))
  | 0xD => some (.drw (fieldX w) (fieldY w) (fieldN w))
  | 0xE => decodeGroupE w
  | 0xF => decodeGroupF w
  | _ => none

/-- Decoding is a pure, total function of the word alone: one instruction, or the invalid opcode by name (R85, R88). -/
def decodeWord (w : Word) : Except DecodeReject Instr :=
  match decodeFields w with
  | some i => .ok i
  | none => .error (.invalidOpcode w)

/-- Two bytes as a word, the byte at the lower address in bits 15:8 (R50, R80). -/
def wordOfBytes (hi lo : Byte) : Word := hi ++ lo

/-- The first instruction of a byte sequence and the bytes after it: every instruction is two bytes, big-endian (R80). -/
def decode : List Byte → Except DecodeReject (Instr × List Byte)
  | hi :: lo :: rest => (decodeWord (wordOfBytes hi lo)).map (·, rest)
  | [lo] => .error (.truncated [lo].length)
  | [] => .error (.truncated 0)

/-! ### The encoder -/

/-- A register index as its 4-bit field (R82). -/
def regBits (x : RegIx) : BitVec 4 := BitVec.ofNat 4 x.val

/-- The word of an instruction (R83, R86); the assembler writes y = 0 in SHR and SHL (R92). -/
def encode : Instr → Word
  | .nop => 0x0000#16
  | .ret => 0x00EE#16
  | .jp nnn => 0x1#4 ++ nnn
  | .call nnn => 0x2#4 ++ nnn
  | .seImm x nn => 0x3#4 ++ regBits x ++ nn
  | .sneImm x nn => 0x4#4 ++ regBits x ++ nn
  | .seReg x y => 0x5#4 ++ regBits x ++ regBits y ++ 0x0#4
  | .ldImm x nn => 0x6#4 ++ regBits x ++ nn
  | .addImm x nn => 0x7#4 ++ regBits x ++ nn
  | .ldReg x y => 0x8#4 ++ regBits x ++ regBits y ++ 0x0#4
  | .orReg x y => 0x8#4 ++ regBits x ++ regBits y ++ 0x1#4
  | .andReg x y => 0x8#4 ++ regBits x ++ regBits y ++ 0x2#4
  | .xorReg x y => 0x8#4 ++ regBits x ++ regBits y ++ 0x3#4
  | .addReg x y => 0x8#4 ++ regBits x ++ regBits y ++ 0x4#4
  | .sub x y => 0x8#4 ++ regBits x ++ regBits y ++ 0x5#4
  | .shr x => 0x8#4 ++ regBits x ++ 0x0#4 ++ 0x6#4
  | .subn x y => 0x8#4 ++ regBits x ++ regBits y ++ 0x7#4
  | .shl x => 0x8#4 ++ regBits x ++ 0x0#4 ++ 0xE#4
  | .sneReg x y => 0x9#4 ++ regBits x ++ regBits y ++ 0x0#4
  | .ldI nnn => 0xA#4 ++ nnn
  | .jpV0 nnn => 0xB#4 ++ nnn
  | .rnd x nn => 0xC#4 ++ regBits x ++ nn
  | .drw x y n => 0xD#4 ++ regBits x ++ regBits y ++ BitVec.ofNat 4 n
  | .skp x => 0xE#4 ++ regBits x ++ 0x9E#8
  | .sknp x => 0xE#4 ++ regBits x ++ 0xA1#8
  | .ldVxDt x => 0xF#4 ++ regBits x ++ 0x07#8
  | .ldVxK x => 0xF#4 ++ regBits x ++ 0x0A#8
  | .ldDtVx x => 0xF#4 ++ regBits x ++ 0x15#8
  | .ldStVx x => 0xF#4 ++ regBits x ++ 0x18#8
  | .addI x => 0xF#4 ++ regBits x ++ 0x1E#8
  | .ldF x => 0xF#4 ++ regBits x ++ 0x29#8
  | .ldB x => 0xF#4 ++ regBits x ++ 0x33#8
  | .storeRegs x => 0xF#4 ++ regBits x ++ 0x55#8
  | .loadRegs x => 0xF#4 ++ regBits x ++ 0x65#8

/-- A word as it lies in memory: bits 15:8 at the lower address (R50). -/
def bytesOfWord (w : Word) : List Byte := [w.extractLsb' 8 8, w.extractLsb' 0 8]

/-- The two bytes of an instruction. -/
def encodeBytes (i : Instr) : List Byte := bytesOfWord (encode i)

/-! ### The opcode table (R86, spec/opcode_table.json) -/

/-- One row: its mnemonic, and the words it covers, `w & mask = bits` (R83). -/
structure Row where
  mnemonic : String
  mask : Word
  bits : Word
  deriving DecidableEq, Repr

/-- A word matches a row when `(w & mask) = match` (R83). -/
def Row.covers (r : Row) (w : Word) : Bool := w &&& r.mask == r.bits

/-- The row of R86 an instruction stands for. -/
def Instr.row : Instr → Row
  | .nop => ⟨"NOP", 0xFFFF, 0x0000⟩
  | .ret => ⟨"RET", 0xFFFF, 0x00EE⟩
  | .jp _ => ⟨"JP_nnn", 0xF000, 0x1000⟩
  | .call _ => ⟨"CALL_nnn", 0xF000, 0x2000⟩
  | .seImm _ _ => ⟨"SE_Vx__nn", 0xF000, 0x3000⟩
  | .sneImm _ _ => ⟨"SNE_Vx__nn", 0xF000, 0x4000⟩
  | .seReg _ _ => ⟨"SE_Vx__Vy", 0xF00F, 0x5000⟩
  | .ldImm _ _ => ⟨"LD_Vx__nn", 0xF000, 0x6000⟩
  | .addImm _ _ => ⟨"ADD_Vx__nn", 0xF000, 0x7000⟩
  | .ldReg _ _ => ⟨"LD_Vx__Vy", 0xF00F, 0x8000⟩
  | .orReg _ _ => ⟨"OR_Vx__Vy", 0xF00F, 0x8001⟩
  | .andReg _ _ => ⟨"AND_Vx__Vy", 0xF00F, 0x8002⟩
  | .xorReg _ _ => ⟨"XOR_Vx__Vy", 0xF00F, 0x8003⟩
  | .addReg _ _ => ⟨"ADD_Vx__Vy", 0xF00F, 0x8004⟩
  | .sub _ _ => ⟨"SUB_Vx__Vy", 0xF00F, 0x8005⟩
  | .shr _ => ⟨"SHR_Vx", 0xF00F, 0x8006⟩
  | .subn _ _ => ⟨"SUBN_Vx__Vy", 0xF00F, 0x8007⟩
  | .shl _ => ⟨"SHL_Vx", 0xF00F, 0x800E⟩
  | .sneReg _ _ => ⟨"SNE_Vx__Vy", 0xF00F, 0x9000⟩
  | .ldI _ => ⟨"LD_I__nnn", 0xF000, 0xA000⟩
  | .jpV0 _ => ⟨"JP_V0__nnn", 0xF000, 0xB000⟩
  | .rnd _ _ => ⟨"RND_Vx__nn", 0xF000, 0xC000⟩
  | .drw _ _ _ => ⟨"DRW_Vx__Vy__n", 0xF000, 0xD000⟩
  | .skp _ => ⟨"SKP_Vx", 0xF0FF, 0xE09E⟩
  | .sknp _ => ⟨"SKNP_Vx", 0xF0FF, 0xE0A1⟩
  | .ldVxDt _ => ⟨"LD_Vx__DT", 0xF0FF, 0xF007⟩
  | .ldVxK _ => ⟨"LD_Vx__K", 0xF0FF, 0xF00A⟩
  | .ldDtVx _ => ⟨"LD_DT__Vx", 0xF0FF, 0xF015⟩
  | .ldStVx _ => ⟨"LD_ST__Vx", 0xF0FF, 0xF018⟩
  | .addI _ => ⟨"ADD_I__Vx", 0xF0FF, 0xF01E⟩
  | .ldF _ => ⟨"LD_F__Vx", 0xF0FF, 0xF029⟩
  | .ldB _ => ⟨"LD_B__Vx", 0xF0FF, 0xF033⟩
  | .storeRegs _ => ⟨"LD__I___Vx", 0xF0FF, 0xF055⟩
  | .loadRegs _ => ⟨"LD_Vx___I", 0xF0FF, 0xF065⟩

/-- One instruction of each kind, in the order of R86. -/
def oneOfEach : List Instr :=
  [.nop, .ret, .jp 0, .call 0, .seImm 0 0, .sneImm 0 0, .seReg 0 0, .ldImm 0 0, .addImm 0 0, .ldReg 0 0, .orReg 0 0,
   .andReg 0 0, .xorReg 0 0, .addReg 0 0, .sub 0 0, .shr 0, .subn 0 0, .shl 0, .sneReg 0 0, .ldI 0, .jpV0 0, .rnd 0 0,
   .drw 0 0 0, .skp 0, .sknp 0, .ldVxDt 0, .ldVxK 0, .ldDtVx 0, .ldStVx 0, .addI 0, .ldF 0, .ldB 0, .storeRegs 0,
   .loadRegs 0]

/-- The table of R86: 34 rows. -/
def opcodeTable : List Row := oneOfEach.map Instr.row

/-! ### The host's view of the decoder -/

/-- The first 16-bit word of an instruction whose bits are `w`, numbered as the opcode table numbers them: bit 0 is the
least significant bit of the first word; bits from `nbits` on are 0. -/
def firstWord (nbits w : Nat) : Word := BitVec.ofNat 16 (w % 2 ^ nbits)

/-- What the decoder reads from an instruction whose bits are `w`: the word is laid out big-endian (R50) and given to
`decode`. -/
def decodeTableWord (nbits w : Nat) : Option Instr :=
  match decode (bytesOfWord (firstWord nbits w)) with
  | .ok (i, _) => some i
  | .error _ => none

end Sys2Proof
end

