-- ==== Sys2Proof/Machine/State.lean ====
section
/-! DEFINITION. The machine state (spec/10_state.md R20: "exactly the following, and nothing else is state"), the faults
(spec/60_exceptions.md R200, R204) and the state after reset (R37). -/

namespace Sys2Proof.Machine

/-- Memory: (address, byte) pairs, addresses strictly rising, listing only bytes that differ from the contents after reset
over the default font (`Memory.blank`); the form is `Memory.wf` in Machine/Ops.lean. -/
abbrev Memory := List Host.Cell

/-- The state of the core. -/
structure State where
  /-- V0..VF, 8 bits each (R21, R22). -/
  v : Vector Byte 16
  /-- The index register I, 16 bits (R23). -/
  i : Word
  /-- The program counter, 16 bits (R24). -/
  pc : Word
  /-- The sixteen stack entries, 16 bits each (R27). -/
  stack : Vector Word 16
  /-- The stack depth, an integer 0..16 (R27). -/
  sp : Fin 17
  /-- The 4096 bytes of memory (R29), glyph table included. -/
  mem : Memory
  /-- The display, px[row][column] (R30). -/
  px : Display
  /-- The key-down flags (R31). -/
  key : Keys
  /-- The delay timer (R32). -/
  dt : Byte
  /-- The sound timer (R32). -/
  st : Byte
  /-- The display-changed signal (R33). -/
  dchg : Bool
  /-- THE MODEL'S OWN, no state of the spec: the draw the caller gave to the step that is running (R9, R171); `none` when
  no caller gave one, and the draw is a free value (entry 3). -/
  rnd : Option Byte
  /-- THE MODEL'S OWN, no state of the spec: how many free draws have been taken (entry 3). -/
  draws : Nat
  deriving DecidableEq, Repr

/-- Why an access or an index is out of bounds (R204). -/
inductive BoundsKind where
  /-- `step` with PC odd or above 4094 (R101). Raised by the fetch. Safe. -/
  | fetch
  /-- DRW or LD Vx,[I] would read above 4095 (R53). Safe. -/
  | read
  /-- LD B or LD [I],Vx would write above 4095 (R53). Safe. -/
  | write
  /-- LD B or LD [I],Vx would write into 0..79 (R56). Safe. -/
  | glyphWrite
  /-- SKP, SKNP or `set_key` with an index above 15 (R182, R223). Safe. -/
  | keyIndex
  /-- `load` of more than 3584 bytes (R243). Safe. -/
  | loadSize
  deriving DecidableEq, Repr

/-- The four faults of the core (R200). A fault is the result of the operation and leaves the state unchanged (R206). -/
inductive Fault where
  /-- Raised by a step whose word matches no row of the opcode map; carries the word (R88, R200). Safe: the spec raises it. -/
  | invalidOpcode (w : Word)
  /-- Raised by CALL at depth 16 (R28, R107). Safe: the spec raises it. -/
  | stackOverflow
  /-- Raised by RET at depth 0 (R28, R105). Safe: the spec raises it. -/
  | stackUnderflow
  /-- Raised by the operations `BoundsKind` names; carries a kind and a 16-bit value (R200, R204). Safe: the spec raises it. -/
  | outOfBounds (kind : BoundsKind) (value : Word)
  deriving DecidableEq, Repr

/-- Why the model gives no meaning. Every instruction of the opcode table has a meaning, so nothing raises it. -/
inductive Refusal where
  /-- An instruction without a meaning yet, by its mnemonic. Raised by no arm of `exec`. Safe. -/
  | notModelled (mnemonic : String)
  deriving DecidableEq, Repr

/-- The outcome of one operation: Ok with the next state, or Fault (R13). -/
abbrev Result := Host.Outcome State Fault Refusal

/-- The state after `reset()` (R37, R240) over the default of the open parameter GLYPH: the glyph table seeded, everything
else zero, PC = PC_RESET. Memory lists nothing, since an unlisted byte reads as its value here; `State.resetWith` in
Machine/Ops.lean is the reset over any font. The last two fields are the model's own (entry 3). -/
def State.reset : State where
  v := Vector.replicate 16 0
  i := 0
  pc := Config.pcReset
  stack := Vector.replicate 16 0
  sp := 0
  mem := []
  px := Vector.replicate 32 (Vector.replicate 64 false)
  key := Vector.replicate 16 false
  dt := 0
  st := 0
  dchg := false
  rnd := none
  draws := 0

end Sys2Proof.Machine
end

