-- ==== Sys2Proof/Machine/Flags.lean ====
section
/-! DEFINITION. The values VF receives as a side effect (spec/10_state.md R22, spec/42_load_and_alu.md R141). The core
has no other flag and no carry-in; operands are taken as naturals, so carry and borrow are comparisons of exact results. -/

namespace Sys2Proof.Machine

/-- A flag as the byte VF receives: 1 or 0 (R22). -/
def flagByte (c : Bool) : Byte := if c then 1 else 0

/-- Carry of an addition: `a + b > 255` (R141, R136). -/
def carry (a b : Byte) : Bool := decide (a.toNat + b.toNat > 255)

/-- No borrow of `a - b`: `a >= b`, which includes `a = b` (R141, R137, R139). -/
def noBorrow (a b : Byte) : Bool := decide (a.toNat ≥ b.toNat)

/-- SHR: bit 0 before the shift (R22, R138). -/
def shiftedOutRight (a : Byte) : Byte := a &&& 1

/-- SHL: bit 7 before the shift, as 0 or 1 (R22, R140). -/
def shiftedOutLeft (a : Byte) : Byte := flagByte (a.getLsbD 7)

end Sys2Proof.Machine
end

