-- ==== Sys2Proof/Machine/Ops.lean ====
section
/-! DEFINITION. The operations the meanings share: faults, registers, memory, stack, display, keys, the random draw and
the instruction fetch. -/

namespace Sys2Proof.Machine

/-! ### Faults: the core's exception entry and what follows it -/

/-- `raise F`: the operation ends at once with result Fault(F) and every change it had made is discarded (R13, R206).
This is the whole of taking an exception on this core: no vector, no handler address, no saved register, no mode
change (R207). -/
def raise (f : Fault) : Result := .fault f

/-- Continue with the value of a checked operation, or raise its fault. -/
def orRaise {α : Type} (r : Except Fault α) (k : α → Result) : Result :=
  match r with
  | .ok a => k a
  | .error f => raise f

/-- The state after an operation begun in `s`: the next state, or, after a fault, bit for bit `s` (R206). There is no
return-from-trap instruction and nothing to restore (R209). -/
def stateAfter (s : State) (r : Result) : State :=
  match r with
  | .next t => t
  | .fault _ => s
  | .refused _ => s

/-- The numeric codes of the faults (R200; the spec's own, decision D13). -/
def faultCode : Fault → Nat
  | .invalidOpcode _ => 1
  | .stackOverflow => 2
  | .stackUnderflow => 3
  | .outOfBounds _ _ => 4

/-- The numeric codes of the kinds of OutOfBounds (R204; the spec's own, decision D13). -/
def boundsKindCode : BoundsKind → Nat
  | .fetch => 0
  | .read => 1
  | .write => 2
  | .glyphWrite => 3
  | .keyIndex => 4
  | .loadSize => 5

/-! ### Registers -/

/-- `V[x]` (R11, R21). -/
def State.reg (s : State) (x : RegIx) : Byte := s.v[x]

/-- `V[x] <- b` (R11, R21): every one of the sixteen is an ordinary register, VF included. -/
def State.setReg (s : State) (x : RegIx) (b : Byte) : State := { s with v := s.v.set x b }

/-- `V[0] <- bytes[0], V[1] <- bytes[1], ...`: registers past the end of `bytes` keep their value (R160). -/
def State.setRegs (s : State) (bytes : List Byte) : State :=
  { s with v := Vector.ofFn fun r : RegIx => bytes.getD r.val (s.reg r) }

/-- `I <- a` (R23). -/
def State.setI (s : State) (a : Word) : State := { s with i := a }

/-- `pc <- a` (R11, R25). -/
def State.setPc (s : State) (a : Word) : State := { s with pc := a }

/-- `DT <- b` (R32). -/
def State.setDt (s : State) (b : Byte) : State := { s with dt := b }

/-- `ST <- b` (R32). -/
def State.setSt (s : State) (b : Byte) : State := { s with st := b }

/-- `dchg <- c` (R33). -/
def State.setDchg (s : State) (c : Bool) : State := { s with dchg := c }

/-- The display becomes `p` (R30). -/
def State.setPx (s : State) (p : Display) : State := { s with px := p }

/-- `key[k] <- down` (R31). -/
def State.setKeyFlag (s : State) (k : KeyIx) (down : Bool) : State := { s with key := s.key.set k down }

/-- Memory becomes `m` (R29). -/
def State.setMem (s : State) (m : Memory) : State := { s with mem := m }

/-- The default advance of PC: by the two bytes of an instruction, before it is dispatched (R25, R103). -/
def State.advance (s : State) : State := s.setPc (s.pc + Config.instrBytes)

/-- A skip: a further 2 on top of the default advance, when the condition holds (R124). -/
def skipIf (c : Bool) (s : State) : State := if c then s.setPc (s.pc + Config.instrBytes) else s

/-! ### Memory -/

/-- What an address reads as while memory lists nothing there: the default font at 0..79 and zero above it (R37, R55,
R57, R240). This fixes how memories are written down, not the font: a memory may list any bytes at 0..79 (entry 13). -/
def Memory.blank (a : Nat) : Byte := Config.defaultFont.toList.getD a 0

/-- `mem[a]`. -/
def Memory.read : Memory → Nat → Byte
  | [], a => Memory.blank a
  | (k, b) :: rest, a => if k = a then b else Memory.read rest a

/-- `mem[a] <- b`, keeping the canonical form. -/
def Memory.write : Memory → Nat → Byte → Memory
  | [], a, b => if b = Memory.blank a then [] else [(a, b)]
  | (k, c) :: rest, a, b =>
    if a < k then
      if b = Memory.blank a then (k, c) :: rest else (a, b) :: (k, c) :: rest
    else if a = k then
      if b = Memory.blank a then rest else (a, b) :: rest
    else (k, c) :: Memory.write rest a b

/-- `mem[a] <- bytes[0], mem[a+1] <- bytes[1], ...` (R12: byte by byte). -/
def Memory.writeBytes : Memory → Nat → List Byte → Memory
  | m, _, [] => m
  | m, a, b :: bs => Memory.writeBytes (m.write a b) (a + 1) bs

/-- `mem[a], mem[a+1], ..., mem[a+n-1]`. -/
def Memory.readBytes (m : Memory) (a n : Nat) : List Byte := (List.range n).map fun k => m.read (a + k)

/-- The state after `reset()` over the parameter GLYPH = `font` (R8, R37, R57, R240): `mem[a] <- GLYPH[a]` for a in 0..79,
every other piece of state as in `State.reset`, which is this for the default font. -/
def State.resetWith (font : Font) : State := { State.reset with mem := Memory.writeBytes [] 0 font.toList }

/-- The canonical form: addresses strictly rising and below 4096, and no entry equal to what its address reads as
unlisted. Equal memories are then equal lists. -/
abbrev Memory.wf (m : Memory) : Prop :=
  m.Pairwise (fun c d => c.1 < d.1) ∧ ∀ c ∈ m, c.1 < Config.memSize ∧ c.2 ≠ Memory.blank c.1

/-- `mem[a]` in a state. -/
def State.byte (s : State) (a : Nat) : Byte := s.mem.read a

/-- The lowest address above 4095 of a range that starts at `base` and reaches above 4095 (R156: `max(I, 4096)`), as a
fault carries it. -/
def lowestAbove (base : Nat) : Word := BitVec.ofNat 16 (max base Config.memSize)

/-- The range `base .. base + count - 1` reaches above 4095; a range of no bytes reaches nothing (R53, R54). Addresses
are naturals and never wrap. -/
def reachesAbove (base count : Nat) : Bool := decide (0 < count ∧ base + (count - 1) > 4095)

/-- Read `count` bytes from `base`, the whole range checked first (R12, R53, R54). -/
def loadBytes (s : State) (base count : Nat) : Except Fault (List Byte) :=
  if reachesAbove base count then .error (.outOfBounds .read (lowestAbove base))
  else .ok (s.mem.readBytes base count)

/-- Write `bytes` from `base`, the whole range checked first: above 4095, then the glyph table (R12, R54, R56, R208). -/
def storeBytes (s : State) (base : Nat) (bytes : List Byte) : Except Fault State :=
  if reachesAbove base bytes.length then .error (.outOfBounds .write (lowestAbove base))
  else if 0 < bytes.length ∧ base < Config.glyphSize then .error (.outOfBounds .glyphWrite (BitVec.ofNat 16 base))
  else .ok (s.setMem (s.mem.writeBytes base bytes))

/-! ### The stack -/

/-- `push(a)` (R28). -/
def push (a : Word) (s : State) : Except Fault State :=
  if h : s.sp.val < 16 then
    .ok { s with stack := s.stack.set s.sp.val a h, sp := ⟨s.sp.val + 1, by omega⟩ }
  else .error .stackOverflow

/-- `pop()`: the entry at the new depth; it is not cleared (R28, decision D22). -/
def pop (s : State) : Except Fault (Word × State) :=
  if h : 0 < s.sp.val then
    .ok (s.stack[s.sp.val - 1]'(by omega), { s with sp := ⟨s.sp.val - 1, by omega⟩ })
  else .error .stackUnderflow

/-! ### Keys and the random draw -/

/-- Some key is down (R184). -/
def anyKeyDown (k : Keys) : Bool := k.toList.any id

/-- The keys that are down, lowest first. -/
def keysDown (k : Keys) : List KeyIx := (List.finRange 16).filter fun j => k[j]

/-- `KEY_PICK(key)`, an index of a key that is down (R184, R186): the only one when there is one, and otherwise any of
them, as the free value `Config.keyChoice` chooses; a choice that is not down counts for the lowest key that is
(entry 4). With no key down it is not used. -/
def pickKey (k : Keys) : KeyIx :=
  match keysDown k with
  | [] => 0
  | [j] => j
  | j :: _ => if k[Config.keyChoice k] then Config.keyChoice k else j

/-- The random byte of this step and the state once it is taken (R171): the caller's, or a fresh free value (entry 3). -/
def takeDraw (s : State) : Byte × State :=
  match s.rnd with
  | some r => (r, { s with rnd := none })
  | none => (Config.freeDraw s.draws, { s with draws := s.draws + 1 })

/-! ### The display -/

/-- `px[r][c]` (R30). -/
def pixel (p : Display) (r : Fin 32) (c : Fin 64) : Bool := (p[r])[c]

/-- `px[r][c] <- px[r][c] ^ 1` (R172). -/
def togglePixel (p : Display) (r : Fin 32) (c : Fin 64) : Display := p.set r ((p[r]).set c (!pixel p r c))

/-! ### The fetch -/

/-- PC is even and at most 4094 (R26, R101). -/
def fetchable (pc : Word) : Bool := decide (pc.toNat % 2 = 0 ∧ pc.toNat ≤ 4094)

/-- The bytes at PC and PC + 1 (R102). -/
def fetchBytes (s : State) : List Byte := s.mem.readBytes s.pc.toNat 2

/-- Fetch and decode: the fetch check, then the word at PC, then the opcode map, in that order (R100, R101, R208). -/
def fetch (s : State) : Except Fault Instr :=
  if fetchable s.pc then
    match decode (fetchBytes s) with
    | .ok (i, _) => .ok i
    | .error (.invalidOpcode w) => .error (.invalidOpcode w)
    | .error (.truncated _) => .error (.outOfBounds .fetch s.pc)
  else .error (.outOfBounds .fetch s.pc)

/-- `s` with the bytes of an instruction placed where the next fetch reads: at PC, or, where PC cannot be fetched from,
at PC_RESET with PC moved there. The bytes are placed as the loader would, without the checks of a store (entry 5). -/
def placeWord (s : State) (w : Word) : State :=
  let pc := if fetchable s.pc then s.pc else Config.pcReset
  (s.setPc pc).setMem (s.mem.writeBytes pc.toNat (bytesOfWord w))

end Sys2Proof.Machine
end

