-- ==== Sys2Proof/Machine/Operands.lean ====
section
/-! DEFINITION. Operand forms: addresses, jump targets, key numbers, decimal digits, register blocks and the geometry of
a sprite (spec/43_index_and_memory.md R151, spec/44_random_and_draw.md R173). -/

namespace Sys2Proof.Machine

/-- The one addressing mode for data, `EA = I + k` as a natural number that never wraps (R151, R53). -/
def effAddr (s : State) (k : Nat) : Nat := s.i.toNat + k

/-- `zext_16(nnn)`: a 12-bit immediate as an address (R84). -/
def immAddr (nnn : Imm12) : Word := nnn.setWidth 16

/-- `zext_16(V[0]) + zext_16(nnn)`: the target of JP V0, not reduced modulo 4096 (R108). -/
def v0Target (s : State) (nnn : Imm12) : Word := (s.reg 0).setWidth 16 + immAddr nnn

/-- `zext_16(b) * 5`: the address of the glyph of digit `b`, the formula applied to every byte (R154, decision D17). -/
def glyphAddr (b : Byte) : Word := BitVec.ofNat 16 (b.toNat * Config.glyphStride)

/-- A register value as a key number; above 15 it is out of bounds, never masked (R182, decision D8). -/
def keyOperand (b : Byte) : Except Fault KeyIx :=
  if h : b.toNat < 16 then .ok ⟨b.toNat, h⟩ else .error (.outOfBounds .keyIndex (b.setWidth 16))

/-- Hundreds, tens and ones, most significant first (R156, R50). -/
def bcdDigits (b : Byte) : List Byte :=
  [BitVec.ofNat 8 (b.toNat / 100), BitVec.ofNat 8 (b.toNat / 10 % 10), BitVec.ofNat 8 (b.toNat % 10)]

/-- V0..Vx, `x + 1` bytes, V0 first (R158). -/
def regBlock (s : State) (x : RegIx) : List Byte := s.v.toList.take (x.val + 1)

/-- The display row of a sprite row: `(Vy + row) mod 32` (R173). -/
def displayRow (y0 row : Nat) : Fin 32 := Fin.ofNat 32 (y0 + row)

/-- The display column of a sprite column: `(Vx + col) mod 64` (R173). -/
def displayCol (x0 col : Nat) : Fin 64 := Fin.ofNat 64 (x0 + col)

/-- One pixel of a sprite row: bit `7 - col` set toggles its pixel and records a collision when it was set
(R172, R174). -/
def drawPixel (x0 y0 row : Nat) (b : Byte) (d : Display × Bool) (col : Nat) : Display × Bool :=
  if b.getLsbD (7 - col) then
    (togglePixel d.1 (displayRow y0 row) (displayCol x0 col),
     d.2 || pixel d.1 (displayRow y0 row) (displayCol x0 col))
  else d

/-- One row of a sprite: columns 0..7, the most significant bit leftmost (R173). -/
def drawRow (x0 y0 row : Nat) (b : Byte) (d : Display × Bool) : Display × Bool :=
  (List.range 8).foldl (drawPixel x0 y0 row b) d

/-- The rows of a sprite from `row` on: the display after them, and whether any pixel went from set to unset (R172). -/
def drawRows (x0 y0 : Nat) : Nat → List Byte → Display × Bool → Display × Bool
  | _, [], d => d
  | row, b :: bs, d => drawRows x0 y0 (row + 1) bs (drawRow x0 y0 row b d)

end Sys2Proof.Machine
end

