-- ==== Sys2Proof/Machine/ControlFlow.lean ====
section
/-! DEFINITION. NOP, RET, JP, CALL, JP V0 (spec/40_cycle_and_control_flow.md). In every meaning of the model the state
given is the one of the instruction's pseudocode: PC already holds `npc = pc0 + 2` (R11, R103; entry 6). -/

namespace Sys2Proof.Machine

/-- NOP: nothing (R104). -/
def execNop (s : State) : Result := .next s

/-- RET: `pc <- pop()`, unchecked; StackUnderflow at depth 0 (R105). -/
def execRet (s : State) : Result := orRaise (pop s) fun (a, t) => .next (t.setPc a)

/-- JP nnn: `pc <- zext_16(nnn)`; every target is accepted, the next fetch checks it (R106). -/
def execJp (nnn : Imm12) (s : State) : Result := .next (s.setPc (immAddr nnn))

/-- CALL nnn: push the already advanced PC, then `pc <- zext_16(nnn)`; StackOverflow at depth 16 (R107). -/
def execCall (nnn : Imm12) (s : State) : Result := orRaise (push s.pc s) fun t => .next (t.setPc (immAddr nnn))

/-- JP V0, nnn: `pc <- V[0] + nnn`, a 16-bit sum (R108). -/
def execJpV0 (nnn : Imm12) (s : State) : Result := .next (s.setPc (v0Target s nnn))

end Sys2Proof.Machine
end

