-- ==== Sys2Proof/Machine/IndexMemory.lean ====
section
/-! DEFINITION. The index register and the memory instructions (spec/43_index_and_memory.md). I is never changed by an
access through it (R151). -/

namespace Sys2Proof.Machine

/-- LD I, nnn (R150). -/
def execLdI (nnn : Imm12) (s : State) : Result := .next (s.setI (immAddr nnn))

/-- ADD I, Vx: modulo 65536, VF untouched (R152, decision D18). -/
def execAddI (x : RegIx) (s : State) : Result := .next (s.setI (s.i + (s.reg x).setWidth 16))

/-- LD F, Vx: `I <- Vx * 5`, for every byte Vx (R154). -/
def execLdF (x : RegIx) (s : State) : Result := .next (s.setI (glyphAddr (s.reg x)))

/-- LD B, Vx: the three decimal digits to `I .. I+2`, the range checked first (R156). -/
def execLdB (x : RegIx) (s : State) : Result := orRaise (storeBytes s (effAddr s 0) (bcdDigits (s.reg x))) .next

/-- LD [I], Vx: V0..Vx to `I .. I+x`, the range checked first (R158). -/
def execStoreRegs (x : RegIx) (s : State) : Result := orRaise (storeBytes s (effAddr s 0) (regBlock s x)) .next

/-- LD Vx, [I]: `I .. I+x` to V0..Vx, the range checked first (R160). -/
def execLoadRegs (x : RegIx) (s : State) : Result :=
  orRaise (loadBytes s (effAddr s 0) (x.val + 1)) fun bytes => .next (s.setRegs bytes)

end Sys2Proof.Machine
end

