-- ==== Sys2Proof/Machine/KeysTimers.lean ====
section
/-! DEFINITION. Keypad and timer instructions (spec/45_keys_and_timers.md). -/

namespace Sys2Proof.Machine

/-- SKP Vx: skip if key[Vx] is down; KeyIndex fault when Vx > 15 (R180, R182). -/
def execSkp (x : RegIx) (s : State) : Result := orRaise (keyOperand (s.reg x)) fun k => .next (skipIf s.key[k] s)

/-- SKNP Vx: skip if key[Vx] is up; KeyIndex fault when Vx > 15 (R181, R182). -/
def execSknp (x : RegIx) (s : State) : Result := orRaise (keyOperand (s.reg x)) fun k => .next (skipIf (!s.key[k]) s)

/-- LD Vx, DT (R183). -/
def execLdVxDt (x : RegIx) (s : State) : Result := .next (s.setReg x s.dt)

/-- LD Vx, K: with no key down `pc <- pc0`, undoing the default advance; else the picked key's index to Vx (R184). -/
def execLdVxK (x : RegIx) (s : State) : Result :=
  if anyKeyDown s.key then .next (s.setReg x (BitVec.ofNat 8 (pickKey s.key).val))
  else .next (s.setPc (s.pc - Config.instrBytes))

/-- LD DT, Vx (R187). -/
def execLdDtVx (x : RegIx) (s : State) : Result := .next (s.setDt (s.reg x))

/-- LD ST, Vx (R188). -/
def execLdStVx (x : RegIx) (s : State) : Result := .next (s.setSt (s.reg x))

end Sys2Proof.Machine
end

