-- ==== Sys2Proof/Machine/LoadAlu.lean ====
section
/-! DEFINITION. Register loads and the ALU (spec/42_load_and_alu.md). Statements run in the order written, each seeing
the writes before it (R14, R143): ADD, SUB and SUBN write the result and then the flag, SHR and SHL the flag and then
the shift of what Vx then holds. -/

namespace Sys2Proof.Machine

/-- LD Vx, nn (R130). -/
def execLdImm (x : RegIx) (nn : Byte) (s : State) : Result := .next (s.setReg x nn)

/-- ADD Vx, nn: modulo 256, no flag (R131). -/
def execAddImm (x : RegIx) (nn : Byte) (s : State) : Result := .next (s.setReg x (s.reg x + nn))

/-- LD Vx, Vy (R132). -/
def execLdReg (x y : RegIx) (s : State) : Result := .next (s.setReg x (s.reg y))

/-- OR Vx, Vy: VF untouched (R133). -/
def execOrReg (x y : RegIx) (s : State) : Result := .next (s.setReg x (s.reg x ||| s.reg y))

/-- AND Vx, Vy: VF untouched (R134). -/
def execAndReg (x y : RegIx) (s : State) : Result := .next (s.setReg x (s.reg x &&& s.reg y))

/-- XOR Vx, Vy: VF untouched (R135). -/
def execXorReg (x y : RegIx) (s : State) : Result := .next (s.setReg x (s.reg x ^^^ s.reg y))

/-- Write a result to Vx and then a flag to VF, so that with x = 15 the flag survives (R143). -/
def resultThenFlag (x : RegIx) (r : Byte) (flag : Bool) (s : State) : State := (s.setReg x r).setReg vf (flagByte flag)

/-- ADD Vx, Vy: sum modulo 256, VF = carry (R136). -/
def execAddReg (x y : RegIx) (s : State) : Result :=
  .next (resultThenFlag x (s.reg x + s.reg y) (carry (s.reg x) (s.reg y)) s)

/-- SUB Vx, Vy: `Vx - Vy` modulo 256, VF = no borrow (R137). -/
def execSub (x y : RegIx) (s : State) : Result :=
  .next (resultThenFlag x (s.reg x - s.reg y) (noBorrow (s.reg x) (s.reg y)) s)

/-- SUBN Vx, Vy: `Vy - Vx` modulo 256, VF = no borrow (R139). -/
def execSubn (x y : RegIx) (s : State) : Result :=
  .next (resultThenFlag x (s.reg y - s.reg x) (noBorrow (s.reg y) (s.reg x)) s)

/-- Write a flag to VF and then to Vx a function of what Vx holds after that write (R143, decision D5). -/
def flagThenShift (x : RegIx) (flag : Byte) (shift : Byte → Byte) (s : State) : State :=
  (s.setReg vf flag).setReg x (shift ((s.setReg vf flag).reg x))

/-- SHR Vx: `VF <- Vx & 1`, then `Vx <- Vx >> 1`; Vy is not read (R138). -/
def execShr (x : RegIx) (s : State) : Result :=
  .next (flagThenShift x (shiftedOutRight (s.reg x)) (fun b => b >>> 1) s)

/-- SHL Vx: `VF <- bit 7 of Vx`, then `Vx <- Vx << 1`; Vy is not read (R140). -/
def execShl (x : RegIx) (s : State) : Result :=
  .next (flagThenShift x (shiftedOutLeft (s.reg x)) (fun b => b <<< 1) s)

end Sys2Proof.Machine
end

