-- ==== Sys2Proof/Machine/RandomDraw.lean ====
section
/-! DEFINITION. RND and DRW (spec/44_random_and_draw.md). -/

namespace Sys2Proof.Machine

/-- RND Vx, nn: `Vx <- rnd & nn`, `rnd` the step's free draw (R170, R171). -/
def execRnd (x : RegIx) (nn : Byte) (s : State) : Result :=
  .next ((takeDraw s).2.setReg x ((takeDraw s).1 &&& nn))

/-- DRW Vx, Vy, n: check the whole sprite, XOR its n rows into the display at (Vx, Vy), then `VF <- hit` and
`dchg <- 1`; Vx and Vy are read before VF is written (R172 to R175). -/
def execDrw (x y : RegIx) (n : Nat) (s : State) : Result :=
  orRaise (loadBytes s (effAddr s 0) n) fun bytes =>
    let drawn := drawRows (s.reg x).toNat (s.reg y).toNat 0 bytes (s.px, false)
    .next (((s.setPx drawn.1).setReg vf (flagByte drawn.2)).setDchg true)

end Sys2Proof.Machine
end

