-- ==== Sys2Proof/Machine/Skips.lean ====
section
/-! DEFINITION. The conditional skips on registers (spec/41_skips.md R124): a further 2 on top of the default advance. -/

namespace Sys2Proof.Machine

/-- SE Vx, nn (R120). -/
def execSeImm (x : RegIx) (nn : Byte) (s : State) : Result := .next (skipIf (s.reg x == nn) s)

/-- SNE Vx, nn (R121). -/
def execSneImm (x : RegIx) (nn : Byte) (s : State) : Result := .next (skipIf (s.reg x != nn) s)

/-- SE Vx, Vy (R122). -/
def execSeReg (x y : RegIx) (s : State) : Result := .next (skipIf (s.reg x == s.reg y) s)

/-- SNE Vx, Vy (R123). -/
def execSneReg (x y : RegIx) (s : State) : Result := .next (skipIf (s.reg x != s.reg y) s)

end Sys2Proof.Machine
end

