-- ==== Sys2Proof/Machine/Step.lean ====
section
/-! DEFINITION. One step: fetch, advance PC, decode, execute (spec/40_cycle_and_control_flow.md R100). -/

namespace Sys2Proof.Machine

/-- `step`: exactly one instruction (R100). The fetch check and the decoding are `fetch`; the default advance comes before
the instruction's own effect (R103); a fault is the result and leaves the state to the caller as it was (R206). The
draw `rnd` is a field of the state (entry 3). -/
def step (s : State) : Host.Outcome State Fault Refusal := orRaise (fetch s) fun i => exec i s.advance

/-- `s` with the instruction whose bits are `w` stored where the next step fetches (entry 5). -/
def State.withFetchWord (s : State) (nbits w : Nat) : State := placeWord s (firstWord nbits w)

end Sys2Proof.Machine
end

