-- ==== Sys2Proof/Machine/Caller.lean ====
section
/-! DEFINITION. The operations through which the caller drives the core (spec/00_scope.md R9): each a single atomic
mutation of the state, none overlapping another (R52, R216). `perform` runs any one of them, `performAll` any
interleaving, on a machine whose glyph table is the open parameter GLYPH, the argument `font` (R8, entry 2). -/

namespace Sys2Proof.Machine

/-- `reset()`: every piece of the core's state as R37 and R240 say, the glyph table re-seeded from GLYPH = `font`, whatever
the state before. The model's own fields are
not the core's and keep their value, so that draws after a reset are fresh ("reset does not reseed anything", R171). -/
def resetCore (font : Font) (s : State) : State := { State.resetWith font with rnd := s.rnd, draws := s.draws }

/-- `load(bytes)`: the bytes to 0x200 onward, verbatim; more than 3584 are refused whole (R243). Nothing else is
touched (R244). -/
def load (bytes : List Byte) (s : State) : Result :=
  if bytes.length > Config.progMax then raise (.outOfBounds .loadSize (BitVec.ofNat 16 (min bytes.length 65535)))
  else .next (s.setMem (s.mem.writeBytes Config.progBase bytes))

/-- A timer after one tick: down by 1 while above 0 (R32, R220). -/
def tickDown (b : Byte) : Byte := if b.toNat > 0 then b - 1 else b

/-- `tick_timer()`: both timers, independently (R220). -/
def tickTimer (s : State) : State := (s.setDt (tickDown s.dt)).setSt (tickDown s.st)

/-- `set_key(index, down)`: an index above 15 is out of bounds (R223, decision D16); the fault carries the index,
saturated to 16 bits (entry 7). -/
def setKey (index : Nat) (down : Bool) (s : State) : Result :=
  if h : index < 16 then .next (s.setKeyFlag ⟨index, h⟩ down)
  else raise (.outOfBounds .keyIndex (BitVec.ofNat 16 (min index 65535)))

/-- `ack_display()`: `dchg <- 0` (R226). -/
def ackDisplay (s : State) : State := s.setDchg false

/-- `display()`: all 2048 pixels, row-major (R225, R30). -/
def display (s : State) : List Bool := s.px.toList.flatMap Vector.toList

/-- `sound_timer()`: ST (R222). -/
def soundTimer (s : State) : Byte := s.st

/-- `display_changed()`: dchg (R226). -/
def displayChanged (s : State) : Bool := s.dchg

/-- `step(rnd)`: one step given the draw `rnd` (R9, R100). The draw is the step's alone: afterwards the field that
carried it is as it was (entry 3). -/
def stepWith (r : Byte) (s : State) : Result :=
  match step { s with rnd := some r } with
  | .next t => .next { t with rnd := s.rnd }
  | .fault f => .fault f
  | .refused m => .refused m

/-- The operations of R9. -/
inductive Op where
  | reset
  | load (bytes : List Byte)
  | step (rnd : Byte)
  | tickTimer
  | setKey (index : Nat) (down : Bool)
  | display
  | soundTimer
  | displayChanged
  | ackDisplay
  deriving DecidableEq, Repr

/-- What an operation gives the caller: Ok, a value read, or Fault (R9, R13). -/
inductive Reply where
  | ok
  | pixels (bits : List Bool)
  | byte (b : Byte)
  | bit (c : Bool)
  | fault (f : Fault)
  | refused (r : Refusal)
  deriving DecidableEq, Repr

/-- The reply to an operation that ends in a result. -/
def replyOf : Result → Reply
  | .next _ => .ok
  | .fault f => .fault f
  | .refused r => .refused r

/-- One operation: its reply and the state after it; after a fault the state is as before (R206). -/
def perform (font : Font) (op : Op) (s : State) : Reply × State :=
  match op with
  | .reset => (.ok, resetCore font s)
  | .load bytes => (replyOf (load bytes s), stateAfter s (load bytes s))
  | .step r => (replyOf (stepWith r s), stateAfter s (stepWith r s))
  | .tickTimer => (.ok, tickTimer s)
  | .setKey index down => (replyOf (setKey index down s), stateAfter s (setKey index down s))
  | .display => (.pixels (display s), s)
  | .soundTimer => (.byte (soundTimer s), s)
  | .displayChanged => (.bit (displayChanged s), s)
  | .ackDisplay => (.ok, ackDisplay s)

/-- The state after a sequence of operations, in the order the caller invokes them (R60, R216). -/
def performAll (font : Font) : List Op → State → State
  | [], s => s
  | op :: ops, s => performAll font ops (perform font op s).2

end Sys2Proof.Machine
end

