-- ==== Sys2Proof/Safety.lean ====
section
/-! DEFINITION. The terms in which claims about the machine are made: what an operation may change (frames), what every
reachable state keeps (invariants), and the pixels a sprite covers. -/

namespace Sys2Proof.Machine

/-! ### Frames -/

/-- `t` is `s` but for the V registers, and those hold `f`. Everything else, memory, I, PC, stack, display, keys, timers
and flags included, is equal. -/
def RegsBecome (s t : State) (f : RegIx → Byte) : Prop := t = { s with v := t.v } ∧ ∀ r, t.reg r = f r

/-- `t` is `s` but for the bytes of memory at `base, base + 1, ...`, which hold `bytes`; every other address reads as
before, and everything but memory is equal. -/
def BytesBecome (s t : State) (base : Nat) (bytes : List Byte) : Prop :=
  t = { s with mem := t.mem } ∧
  (∀ k, ∀ h : k < bytes.length, t.byte (base + k) = bytes[k]) ∧
  ∀ a, a < base ∨ base + bytes.length ≤ a → t.byte a = s.byte a

/-- The V registers an instruction may change: its destination, the flag register where the instruction has a flag
(R22), V0..Vx for the block load (R160). -/
def destRegs : Instr → List RegIx
  | .ldImm x _ | .addImm x _ | .ldReg x _ | .orReg x _ | .andReg x _ | .xorReg x _ | .rnd x _ | .ldVxDt x
  | .ldVxK x => [x]
  | .addReg x _ | .sub x _ | .subn x _ | .shr x | .shl x => [x, vf]
  | .drw _ _ _ => [vf]
  | .loadRegs x => (List.finRange 16).filter (· ≤ x)
  | .nop | .ret | .jp _ | .call _ | .seImm _ _ | .sneImm _ _ | .seReg _ _ | .sneReg _ _ | .ldI _ | .jpV0 _ | .skp _
  | .sknp _ | .ldDtVx _ | .ldStVx _ | .addI _ | .ldF _ | .ldB _ | .storeRegs _ => []

/-- Two states that differ at most in the stack entries at or above the depth, the stale ones (R28). -/
def SameButStale (s s' : State) : Prop :=
  s' = { s with stack := s'.stack } ∧ ∀ k : Fin 16, k.val < s.sp.val → s'.stack[k] = s.stack[k]

/-! ### Invariants -/

/-- "memory[0..80] always equals the built-in glyph table" (R56), whatever 80 bytes the table is (R57). -/
def GlyphIntact (font : Font) (s : State) : Prop := ∀ k : Fin 80, s.byte k.val = font[k]

/-- PC holds a value it can hold between steps: 0..4350 (R25, R26). -/
def PcInRange (s : State) : Prop := s.pc.toNat ≤ 4350

/-- A value CALL can have pushed: "hence even and at most 4096" (R105). -/
def ReturnAddress (a : Word) : Prop := a.toNat % 2 = 0 ∧ a.toNat ≤ 4096

/-- The entries below the depth are return addresses (R105, R107). -/
def StackOk (s : State) : Prop := ∀ k : Fin 16, k.val < s.sp.val → ReturnAddress s.stack[k]

/-- What every state reached from reset over the font keeps. -/
structure CoreInv (font : Font) (s : State) : Prop where
  memory : s.mem.wf
  glyph : GlyphIntact font s
  pc : PcInRange s
  stack : StackOk s

/-- A state some sequence of the caller's operations leads to from reset over the font (R216, R241). -/
def Reachable (font : Font) (s : State) : Prop := ∃ ops, s = performAll font ops (State.resetWith font)

/-! ### Sprites -/

/-- The n-row sprite at I, drawn at (Vx, Vy), inverts the pixel of display row `r` and column `c`: one of its set bits,
bit `7 - col` of byte `row`, falls on row `(Vy + row) mod 32` and column `(Vx + col) mod 64` (R172, R173). -/
def spriteCovers (s : State) (x y : RegIx) (n : Nat) (r : Fin 32) (c : Fin 64) : Prop :=
  ∃ row col : Nat, row < n ∧ col < 8 ∧ r.val = ((s.reg y).toNat + row) % 32 ∧ c.val = ((s.reg x).toNat + col) % 64 ∧
    (s.byte (s.i.toNat + row)).getLsbD (7 - col) = true

/-- DRW collides: a pixel the sprite inverts was set (R174). -/
def spriteCollides (s : State) (x y : RegIx) (n : Nat) : Prop :=
  ∃ r c, spriteCovers s x y n r c ∧ pixel s.px r c = true

end Sys2Proof.Machine
end

