-- ==== Sys2Proof/Certificates/Slice0/Obligations.lean ====
section
/-! DEFINITION. The statements for the provers. In every statement about `exec` the state given is the one the
instruction's pseudocode runs in: PC already holds pc0 + 2 (R11, R103). `StepRunsTheDecodedInstruction` ties them to
`step`. A word is written as its fields, high bits first (`++`, R10). -/

open Sys2Proof Sys2Proof.Machine

/-! ### Reset -/

/-- 10_state.md section 8, for every value of the open parameter GLYPH (R57). Not the source's: PC = 0x200 is the spec's
decision D2 (entry 1), the flag's 0 rests on D11 (entry 10), and the last clause, that the model's `State.reset` is the
reset over the default font, on decision D6 (entry 2). -/
def Obligations.ResetStateHasTheListedValues : Prop :=
  (∀ font s, s = State.resetWith font →
    (∀ r, s.reg r = 0) ∧ s.i = 0 ∧ s.pc = 0x200 ∧ (∀ k : Fin 16, s.stack[k] = 0) ∧ s.sp = 0 ∧
    (∀ k : Fin 80, s.byte k.val = font[k]) ∧ (∀ a, 80 ≤ a → a ≤ 4095 → s.byte a = 0) ∧
    (∀ r c, pixel s.px r c = false) ∧ (∀ k : KeyIx, s.key[k] = false) ∧ s.dt = 0 ∧ s.st = 0 ∧ s.dchg = false) ∧
  State.reset = State.resetWith Config.defaultFont

/-- 70_reset_and_hazards.md section 1: reset cannot fault, does not depend on the state before it, and doing it twice is
doing it once, whatever the font. The model's own two fields, no state of the core, keep their value (entry 3). -/
def Obligations.ResetIgnoresTheStateBeforeIt : Prop :=
  ∀ font s, perform font .reset s = (.ok, { State.resetWith font with rnd := s.rnd, draws := s.draws }) ∧
    perform font .reset (perform font .reset s).2 = perform font .reset s

/-! ### Encoding and decoding -/

/-- Decoding the bytes of a well-formed instruction gives it back, with every operand, and leaves the rest. -/
def Obligations.DecodingAnEncodedInstructionGivesItBack : Prop :=
  ∀ i rest, WellFormed i = true → decode (encodeBytes i ++ rest) = .ok (i, rest)

/-- Encoding a decoded word gives the word back; only SHR and SHL lose bits, the ignored y nibble (R89), which the
assembler writes as 0 (R92, entry 25). -/
def Obligations.EncodingADecodedWordKeepsEveryUsedBit : Prop :=
  ∀ w i, decodeWord w = .ok i → WellFormed i = true ∧
    (encode i = w ∨ ((∃ x, i = .shr x ∨ i = .shl x) ∧ encode i = w &&& 0xFF0F))

/-- The invalid words are exactly those of the table of R88, group by group. That 0x00E0 is among them is also the spec's
decision D12 (entry 22). -/
def Obligations.InvalidWordsAreExactlyTheListedGroups : Prop :=
  ∀ w : Word, decodeWord w = .error (.invalidOpcode w) ↔
    (w.toNat / 4096 = 0x0 ∧ w.toNat ≠ 0x0000 ∧ w.toNat ≠ 0x00EE) ∨
    (w.toNat / 4096 = 0x5 ∧ w.toNat % 16 ≠ 0) ∨
    (w.toNat / 4096 = 0x8 ∧ w.toNat % 16 ∈ [0x8, 0x9, 0xA, 0xB, 0xC, 0xD, 0xF]) ∨
    (w.toNat / 4096 = 0x9 ∧ w.toNat % 16 ≠ 0) ∨
    (w.toNat / 4096 = 0xE ∧ w.toNat % 256 ∉ [0x9E, 0xA1]) ∨
    (w.toNat / 4096 = 0xF ∧ w.toNat % 256 ∉ [0x07, 0x0A, 0x15, 0x18, 0x1E, 0x29, 0x33, 0x55, 0x65])

/-- A word decodes exactly when a row of the opcode table covers it, to an instruction of that row, and no two rows cover
one word. -/
def Obligations.DecoderAndOpcodeTableAgree : Prop :=
  ∀ w : Word, ((∃ i, decodeWord w = .ok i) ↔ ∃ r ∈ opcodeTable, r.covers w = true) ∧
    (∀ i, decodeWord w = .ok i → i.row ∈ opcodeTable ∧ i.row.covers w = true) ∧
    ∀ r ∈ opcodeTable, ∀ r' ∈ opcodeTable, r.covers w = true → r'.covers w = true → r = r'

/-- The spot checks of 95_test_vectors.md section 2.7 and the words of the examples of files 40 to 45. That 0x00E0 is
invalid is also the spec's decision D12 (entry 22). -/
def Obligations.ExampleWordsDecodeAsWritten : Prop :=
  decodeWord 0x0000 = .ok .nop ∧ decodeWord 0x00EE = .ok .ret ∧ decodeWord 0x2300 = .ok (.call 0x300) ∧
  decodeWord 0x332A = .ok (.seImm 3 0x2A) ∧ decodeWord 0x5AB0 = .ok (.seReg 0xA 0xB) ∧
  decodeWord 0x8127 = .ok (.subn 1 2) ∧ decodeWord 0x8AB6 = .ok (.shr 0xA) ∧ decodeWord 0x8A06 = .ok (.shr 0xA) ∧
  decodeWord 0xA2F0 = .ok (.ldI 0x2F0) ∧ decodeWord 0xC30F = .ok (.rnd 3 0x0F) ∧
  decodeWord 0xD015 = .ok (.drw 0 1 5) ∧ decodeWord 0xE09E = .ok (.skp 0) ∧ decodeWord 0xF065 = .ok (.loadRegs 0) ∧
  decodeWord 0x5AB1 = .error (.invalidOpcode 0x5AB1) ∧ decodeWord 0xE09F = .error (.invalidOpcode 0xE09F) ∧
  decodeWord 0xF066 = .error (.invalidOpcode 0xF066) ∧ decodeWord 0x00E0 = .error (.invalidOpcode 0x00E0)

/-! ### The step -/

/-- When the two bytes at an even PC of at most 4094 decode to an instruction, the step is that instruction with PC
advanced by 2 (R50, R100, R102, R103; decision D4, entry 12, for the condition on PC, and D27, entry 26, for its range).
The state `exec` is given is the model's reading of R103 (entry 6). -/
def Obligations.StepRunsTheDecodedInstruction : Prop :=
  ∀ s i, s.pc.toNat % 2 = 0 → s.pc.toNat ≤ 4094 →
    decode [s.byte s.pc.toNat, s.byte (s.pc.toNat + 1)] = .ok (i, []) → step s = exec i { s with pc := s.pc + 2 }

/-- A fetch at an odd PC or one above 4094 faults with PC (the spec's decision D4, entry 12). -/
def Obligations.FetchFaultsAtAnOddOrTooHighPc : Prop :=
  ∀ s, s.pc.toNat % 2 = 1 ∨ 4094 < s.pc.toNat → step s = .fault (.outOfBounds .fetch s.pc)

/-- A word that matches no row faults with the word (30_encoding.md section 3; 0x00E0 among them, decision D12, entry 22;
at any even address, decisions D4, entry 12, and D27, entry 26). -/
def Obligations.StepFaultsOnAnInvalidWord : Prop :=
  ∀ s w, s.pc.toNat % 2 = 0 → s.pc.toNat ≤ 4094 → s.byte s.pc.toNat ++ s.byte (s.pc.toNat + 1) = w →
    (∀ r ∈ opcodeTable, r.covers w = false) → step s = .fault (.invalidOpcode w)

/-- The whole table of R205: which instruction faults, when, and with what; no other fault, and no refusal. The faults of
the glyph table and of a key index are the spec's decisions D7 and D8 (entry 8), the values carried D13 and D14
(entry 23). That DRW with n = 0 never faults is D23 (entry 20, marked unsafe), that LD F and ADD I fault for no Vx is D17
and D18 (entry 11), that a jump, call, return or skip faults for no target is D4 (entry 12), and that a waiting LD Vx, K
does not fault is D25 (entry 21). -/
def Obligations.InstructionsFaultExactlyAsListed : Prop :=
  ∀ i s, (∀ m, exec i s ≠ .refused m) ∧ ∀ f, exec i s = .fault f ↔
    (i = .ret ∧ s.sp = 0 ∧ f = .stackUnderflow) ∨
    ((∃ nnn, i = .call nnn) ∧ s.sp = 16 ∧ f = .stackOverflow) ∨
    (∃ x y n, i = .drw x y n ∧ 0 < n ∧ 4095 < s.i.toNat + n - 1 ∧
      f = .outOfBounds .read (BitVec.ofNat 16 (max s.i.toNat 4096))) ∨
    (∃ x : RegIx, i = .loadRegs x ∧ 4095 < s.i.toNat + x.val ∧
      f = .outOfBounds .read (BitVec.ofNat 16 (max s.i.toNat 4096))) ∨
    (∃ x, i = .ldB x ∧ 4095 < s.i.toNat + 2 ∧ f = .outOfBounds .write (BitVec.ofNat 16 (max s.i.toNat 4096))) ∨
    (∃ x : RegIx, i = .storeRegs x ∧ 4095 < s.i.toNat + x.val ∧
      f = .outOfBounds .write (BitVec.ofNat 16 (max s.i.toNat 4096))) ∨
    (∃ x, (i = .ldB x ∨ i = .storeRegs x) ∧ s.i.toNat ≤ 79 ∧ f = .outOfBounds .glyphWrite s.i) ∨
    (∃ x, (i = .skp x ∨ i = .sknp x) ∧ 15 < (s.reg x).toNat ∧
      f = .outOfBounds .keyIndex ((s.reg x).setWidth 16))

/-! ### Control flow (40_cycle_and_control_flow.md) -/

/-- R104. -/
def Obligations.NopChangesNothingButPc : Prop :=
  (∀ w, decodeWord w = .ok .nop ↔ w = 0x0000) ∧ (∀ s, exec .nop s = .next s) ∧
  ∀ s, fetch s = .ok .nop → step s = .next { s with pc := s.pc + 2 }

/-- 40_cycle_and_control_flow.md section 3: at depth d + 1 the entry at d becomes PC and the depth d; at depth 0
StackUnderflow. That the popped entry is not cleared is the spec's decision D22 (entry 19). -/
def Obligations.RetPopsThePc : Prop :=
  (∀ w, decodeWord w = .ok .ret ↔ w = 0x00EE) ∧
  (∀ s, ∀ d : Fin 16, s.sp.val = d.val + 1 → exec .ret s = .next { s with sp := d.castSucc, pc := s.stack[d] }) ∧
  ∀ s, s.sp = 0 → exec .ret s = .fault .stackUnderflow

/-- R106. -/
def Obligations.JpSetsThePc : Prop :=
  ∀ nnn : Imm12, decodeWord (0x1#4 ++ nnn) = .ok (.jp nnn) ∧
    ∀ s, exec (.jp nnn) s = .next { s with pc := nnn.setWidth 16 }

/-- R107: at depth d the advanced PC becomes the entry at d and the depth d + 1; at depth 16 StackOverflow. -/
def Obligations.CallPushesTheAdvancedPc : Prop :=
  ∀ nnn : Imm12, decodeWord (0x2#4 ++ nnn) = .ok (.call nnn) ∧
    (∀ s, ∀ d : Fin 16, s.sp.val = d.val →
      exec (.call nnn) s = .next { s with stack := s.stack.set d s.pc, sp := d.succ, pc := nnn.setWidth 16 }) ∧
    (∀ s, s.sp = 16 → exec (.call nnn) s = .fault .stackOverflow) ∧
    ∀ s, ∀ d : Fin 16, fetch s = .ok (.call nnn) → s.sp.val = d.val → step s = .next { s with
      stack := s.stack.set d (s.pc + 2), sp := d.succ, pc := nnn.setWidth 16 }

/-- R108: the 16-bit sum, which does not overflow and is not reduced modulo 4096. -/
def Obligations.JpV0AddsV0 : Prop :=
  ∀ nnn : Imm12, decodeWord (0xB#4 ++ nnn) = .ok (.jpV0 nnn) ∧
    ∀ s, ∃ a : Word, exec (.jpV0 nnn) s = .next { s with pc := a } ∧ a.toNat = (s.reg 0).toNat + nnn.toNat

/-- A CALL and then a RET that finds the stack as the CALL left it: PC is the address after the CALL and the depth is as
before (40_cycle_and_control_flow.md section 5; vector S7). The last clause keeps the popped entry, the spec's decision
D22 (entry 19). -/
def Obligations.RetAfterCallComesBack : Prop :=
  ∀ nnn s t t', exec (.call nnn) s = .next t → t'.stack = t.stack → t'.sp = t.sp →
    ∃ u, exec .ret t' = .next u ∧ u.pc = s.pc ∧ u.sp = s.sp ∧ u = { t' with pc := u.pc, sp := u.sp }

/-- A JP to its own address is a fixed point of the step (40_cycle_and_control_flow.md section 1; decision D30,
entry 27). -/
def Obligations.JumpToItselfIsAFixedPoint : Prop :=
  ∀ s nnn, fetch s = .ok (.jp nnn) → nnn.setWidth 16 = s.pc → step s = .next s

/-! ### Skips (41_skips.md) -/

/-- R120 to R123: a further 2 on PC when the condition holds, nothing else; in the two-register forms a low nibble other
than 0 is an invalid opcode. -/
def Obligations.RegisterSkipsAddTwoWhenTrue : Prop :=
  ∀ (x y : RegIx) (nn : Byte),
    decodeWord (0x3#4 ++ regBits x ++ nn) = .ok (.seImm x nn) ∧
    decodeWord (0x4#4 ++ regBits x ++ nn) = .ok (.sneImm x nn) ∧
    decodeWord (0x5#4 ++ regBits x ++ regBits y ++ 0x0#4) = .ok (.seReg x y) ∧
    decodeWord (0x9#4 ++ regBits x ++ regBits y ++ 0x0#4) = .ok (.sneReg x y) ∧
    (∀ n : BitVec 4, n ≠ 0#4 → decodeWord (0x5#4 ++ regBits x ++ regBits y ++ n) =
        .error (.invalidOpcode (0x5#4 ++ regBits x ++ regBits y ++ n)) ∧
      decodeWord (0x9#4 ++ regBits x ++ regBits y ++ n) =
        .error (.invalidOpcode (0x9#4 ++ regBits x ++ regBits y ++ n))) ∧
    ∀ s, exec (.seImm x nn) s = .next { s with pc := if s.reg x = nn then s.pc + 2 else s.pc } ∧
      exec (.sneImm x nn) s = .next { s with pc := if s.reg x ≠ nn then s.pc + 2 else s.pc } ∧
      exec (.seReg x y) s = .next { s with pc := if s.reg x = s.reg y then s.pc + 2 else s.pc } ∧
      exec (.sneReg x y) s = .next { s with pc := if s.reg x ≠ s.reg y then s.pc + 2 else s.pc }

/-- R124: over a whole step PC goes from pc0 to pc0 + 4 when the condition holds and to pc0 + 2 when not; nothing else
changes, and the skipped word plays no part. -/
def Obligations.SkipStepsMovePcByFourOrTwo : Prop :=
  ∀ s (x y : RegIx) (nn : Byte),
    (fetch s = .ok (.seImm x nn) → step s = .next { s with pc := if s.reg x = nn then s.pc + 4 else s.pc + 2 }) ∧
    (fetch s = .ok (.sneImm x nn) → step s = .next { s with pc := if s.reg x = nn then s.pc + 2 else s.pc + 4 }) ∧
    (fetch s = .ok (.seReg x y) → step s = .next { s with pc := if s.reg x = s.reg y then s.pc + 4 else s.pc + 2 }) ∧
    (fetch s = .ok (.sneReg x y) → step s = .next { s with pc := if s.reg x = s.reg y then s.pc + 2 else s.pc + 4 })

/-! ### Register loads and the ALU (42_load_and_alu.md) -/

/-- R130, R131, R132: the destination alone changes; ADD Vx, nn writes no flag. -/
def Obligations.LoadsAndAddImmediateWriteVxOnly : Prop :=
  ∀ (x y : RegIx) (nn : Byte),
    decodeWord (0x6#4 ++ regBits x ++ nn) = .ok (.ldImm x nn) ∧
    decodeWord (0x7#4 ++ regBits x ++ nn) = .ok (.addImm x nn) ∧
    decodeWord (0x8#4 ++ regBits x ++ regBits y ++ 0x0#4) = .ok (.ldReg x y) ∧
    ∀ s, (∃ t, exec (.ldImm x nn) s = .next t ∧ RegsBecome s t fun r => if r = x then nn else s.reg r) ∧
      (∃ t, exec (.addImm x nn) s = .next t ∧ RegsBecome s t fun r =>
        if r = x then BitVec.ofNat 8 (((s.reg x).toNat + nn.toNat) % 256) else s.reg r) ∧
      (∃ t, exec (.ldReg x y) s = .next t ∧ RegsBecome s t fun r => if r = x then s.reg y else s.reg r)

/-- R133, R134, R135: the destination alone changes, VF untouched unless it is the destination. -/
def Obligations.BitwiseOperationsWriteVxOnly : Prop :=
  ∀ x y : RegIx,
    decodeWord (0x8#4 ++ regBits x ++ regBits y ++ 0x1#4) = .ok (.orReg x y) ∧
    decodeWord (0x8#4 ++ regBits x ++ regBits y ++ 0x2#4) = .ok (.andReg x y) ∧
    decodeWord (0x8#4 ++ regBits x ++ regBits y ++ 0x3#4) = .ok (.xorReg x y) ∧
    ∀ s, (∃ t, exec (.orReg x y) s = .next t ∧
        RegsBecome s t fun r => if r = x then s.reg x ||| s.reg y else s.reg r) ∧
      (∃ t, exec (.andReg x y) s = .next t ∧
        RegsBecome s t fun r => if r = x then s.reg x &&& s.reg y else s.reg r) ∧
      (∃ t, exec (.xorReg x y) s = .next t ∧
        RegsBecome s t fun r => if r = x then s.reg x ^^^ s.reg y else s.reg r)

/-- R136: sum modulo 256 to Vx, carry to VF, the flag surviving when x = 15. -/
def Obligations.AddSetsVfToTheCarry : Prop :=
  ∀ x y : RegIx, decodeWord (0x8#4 ++ regBits x ++ regBits y ++ 0x4#4) = .ok (.addReg x y) ∧
    ∀ s, ∃ t, exec (.addReg x y) s = .next t ∧ RegsBecome s t fun r =>
      if r = 15 then (if (s.reg x).toNat + (s.reg y).toNat > 255 then 1 else 0)
      else if r = x then BitVec.ofNat 8 (((s.reg x).toNat + (s.reg y).toNat) % 256)
      else s.reg r

/-- R137 and R139: the difference modulo 256 to Vx, "no borrow" to VF, the flag surviving when x = 15; SUBN with the
operands exchanged and the same destination. -/
def Obligations.SubtractionsSetVfToNoBorrow : Prop :=
  ∀ x y : RegIx,
    decodeWord (0x8#4 ++ regBits x ++ regBits y ++ 0x5#4) = .ok (.sub x y) ∧
    decodeWord (0x8#4 ++ regBits x ++ regBits y ++ 0x7#4) = .ok (.subn x y) ∧
    ∀ s, (∃ t, exec (.sub x y) s = .next t ∧ RegsBecome s t fun r =>
        if r = 15 then (if (s.reg x).toNat ≥ (s.reg y).toNat then 1 else 0)
        else if r = x then BitVec.ofNat 8 (((s.reg x).toNat + 256 - (s.reg y).toNat) % 256)
        else s.reg r) ∧
      (∃ t, exec (.subn x y) s = .next t ∧ RegsBecome s t fun r =>
        if r = 15 then (if (s.reg y).toNat ≥ (s.reg x).toNat then 1 else 0)
        else if r = x then BitVec.ofNat 8 (((s.reg y).toNat + 256 - (s.reg x).toNat) % 256)
        else s.reg r)

/-- 42_load_and_alu.md section 3: SHR and SHL shift Vx in place by one bit and put the bit shifted out in VF, whatever the
ignored y nibble. The forms with x = 15 are the spec's decision D5 (entry 9): SHR VF leaves 0, SHL VF leaves 2 or 0. -/
def Obligations.ShiftsMoveOneBitIntoVf : Prop :=
  ∀ (x : RegIx) (y : BitVec 4),
    decodeWord (0x8#4 ++ regBits x ++ y ++ 0x6#4) = .ok (.shr x) ∧
    decodeWord (0x8#4 ++ regBits x ++ y ++ 0xE#4) = .ok (.shl x) ∧
    ∀ s, (∃ t, exec (.shr x) s = .next t ∧ RegsBecome s t fun r =>
        if r = 15 then (if x = 15 then 0 else BitVec.ofNat 8 ((s.reg x).toNat % 2))
        else if r = x then BitVec.ofNat 8 ((s.reg x).toNat / 2)
        else s.reg r) ∧
      (∃ t, exec (.shl x) s = .next t ∧ RegsBecome s t fun r =>
        if r = 15 then (if x = 15 then (if (s.reg x).toNat ≥ 128 then 2 else 0)
          else BitVec.ofNat 8 ((s.reg x).toNat / 128))
        else if r = x then BitVec.ofNat 8 ((s.reg x).toNat * 2 % 256)
        else s.reg r)

/-! ### Index register and memory (43_index_and_memory.md) -/

/-- R150. -/
def Obligations.LdISetsTheIndex : Prop :=
  ∀ nnn : Imm12, decodeWord (0xA#4 ++ nnn) = .ok (.ldI nnn) ∧
    ∀ s, exec (.ldI nnn) s = .next { s with i := nnn.setWidth 16 }

/-- 43_index_and_memory.md section 2: ADD I wraps at 16 bits (decision D18, entry 11) and sets no flag; LD F is Vx * 5 for
every Vx (decision D17, entry 11). -/
def Obligations.IndexArithmeticWritesIOnly : Prop :=
  ∀ x : RegIx, decodeWord (0xF#4 ++ regBits x ++ 0x1E#8) = .ok (.addI x) ∧
    decodeWord (0xF#4 ++ regBits x ++ 0x29#8) = .ok (.ldF x) ∧
    ∀ s, (∃ a : Word, exec (.addI x) s = .next { s with i := a } ∧
        a.toNat = (s.i.toNat + (s.reg x).toNat) % 65536) ∧
      (∃ a : Word, exec (.ldF x) s = .next { s with i := a } ∧ a.toNat = (s.reg x).toNat * 5)

/-- 43_index_and_memory.md section 3: with I in 80..4093 LD B stores hundreds, tens and ones at I, I + 1, I + 2 and
changes nothing else, I included (decision D19, entry 18, for I, D7, entry 8, for the bound 80). -/
def Obligations.LdBStoresThreeDigits : Prop :=
  ∀ x : RegIx, decodeWord (0xF#4 ++ regBits x ++ 0x33#8) = .ok (.ldB x) ∧
    ∀ s, s.mem.wf → 80 ≤ effAddr s 0 → effAddr s 2 ≤ 4095 → ∃ t, exec (.ldB x) s = .next t ∧
      t = { s with mem := t.mem } ∧
      (t.byte (effAddr s 0)).toNat = (s.reg x).toNat / 100 ∧
      (t.byte (effAddr s 1)).toNat = (s.reg x).toNat / 10 % 10 ∧
      (t.byte (effAddr s 2)).toNat = (s.reg x).toNat % 10 ∧
      ∀ a, a < effAddr s 0 ∨ effAddr s 2 < a → t.byte a = s.byte a

/-- 43_index_and_memory.md section 3: with the range I..I+x inside 80..4095 LD [I], Vx stores V0..Vx, V0 lowest, and
changes nothing else, I included (decision D19, entry 18, for I, D7, entry 8, for the bound
80). -/
def Obligations.StoreRegsWritesTheBlock : Prop :=
  ∀ x : RegIx, decodeWord (0xF#4 ++ regBits x ++ 0x55#8) = .ok (.storeRegs x) ∧
    ∀ s, s.mem.wf → 80 ≤ effAddr s 0 → effAddr s x.val ≤ 4095 → ∃ t, exec (.storeRegs x) s = .next t ∧
      t = { s with mem := t.mem } ∧
      (∀ k : RegIx, k ≤ x → t.byte (effAddr s k.val) = s.reg k) ∧
      ∀ a, a < effAddr s 0 ∨ effAddr s x.val < a → t.byte a = s.byte a

/-- 43_index_and_memory.md section 4: with I + x at most 4095 LD Vx, [I] loads V0..Vx, registers above Vx, I and memory
unchanged (decision D19, entry 18, for I). -/
def Obligations.LoadRegsReadsTheBlock : Prop :=
  ∀ x : RegIx, decodeWord (0xF#4 ++ regBits x ++ 0x65#8) = .ok (.loadRegs x) ∧
    ∀ s, effAddr s x.val ≤ 4095 → ∃ t, exec (.loadRegs x) s = .next t ∧
      RegsBecome s t fun r => if r ≤ x then s.byte (effAddr s r.val) else s.reg r

/-- A block store and then a block load with the same I and x, whatever the registers hold in between, restores the same
registers (43_index_and_memory.md section 4; the same I because of decision D19, entry 18). -/
def Obligations.StoreThenLoadRestoresTheRegisters : Prop :=
  ∀ (x : RegIx) s t v, s.mem.wf → exec (.storeRegs x) s = .next t →
    ∃ u, exec (.loadRegs x) { t with v := v } = .next u ∧ ∀ r, r ≤ x → u.reg r = s.reg r

/-- A store is seen by the next fetch: two registers stored at the PC of the next instruction are what is fetched
(20_memory.md section 5). That a fetch from data, at any even address, below 0x200 included, completes is the spec's
decision D27 (entry 26, marked unsafe). -/
def Obligations.StoredCodeIsFetchedNext : Prop :=
  ∀ (x : RegIx) s t j, s.mem.wf → exec (.storeRegs x) s = .next t → 1 ≤ x → s.i = s.pc → s.pc.toNat % 2 = 0 →
    decodeWord (s.reg 0 ++ s.reg 1) = .ok j → fetch t = .ok j

/-! ### Random number and sprite draw (44_random_and_draw.md) -/

/-- 44_random_and_draw.md section 1: Vx becomes the step's draw and nn; nothing else of the core changes, every value inside
the mask is possible and none outside. That the draw is a free input is the spec's decision D10; the fields that carry
it, and the free value of a step nobody gave a draw, are the model's choice (entry 3). -/
def Obligations.RndMasksTheDraw : Prop :=
  ∀ (x : RegIx) (nn : Byte), decodeWord (0xC#4 ++ regBits x ++ nn) = .ok (.rnd x nn) ∧
    (∀ s, ∃ t b, exec (.rnd x nn) s = .next t ∧ t = { s with v := t.v, rnd := t.rnd, draws := t.draws } ∧
      (∀ r, t.reg r = if r = x then b &&& nn else s.reg r) ∧ (∀ g, s.rnd = some g → b = g)) ∧
    (∀ s b, fetch s = .ok (.rnd x nn) → ∃ t, stepWith b s = .next t ∧
      RegsBecome { s with pc := s.pc + 2 } t fun r => if r = x then b &&& nn else s.reg r) ∧
    ∀ v : Byte, (∃ b, b &&& nn = v) ↔ v &&& ~~~nn = 0

/-- The draw given to a step is used by RND alone (40_cycle_and_control_flow.md section 1; decision D10, and entry 3 for
the model's form of it). -/
def Obligations.DrawMattersToRndOnly : Prop :=
  ∀ s i b, fetch s = .ok i → (∀ x nn, i ≠ .rnd x nn) → stepWith b s = step s

/-- 44_random_and_draw.md section 2: DRW inverts exactly the pixels its sprite covers, toroidally, sets VF to 1 when one
of them was set and to 0 otherwise, and sets the display-changed flag (decision D11, entry 10); nothing else changes.
The coordinates are those before VF is written. n = 0 needs no bound on I (decision D23, entry 20). That the
coordinates are read first is D5 (entry 9), that I stays D19 (entry 18). -/
def Obligations.DrwInvertsTheCoveredPixels : Prop :=
  ∀ (x y : RegIx) (n : Nat), n < 16 →
    decodeWord (0xD#4 ++ regBits x ++ regBits y ++ BitVec.ofNat 4 n) = .ok (.drw x y n) ∧
    ∀ s, n = 0 ∨ s.i.toNat + n - 1 ≤ 4095 → ∃ t, exec (.drw x y n) s = .next t ∧
      t = { s with v := t.v, px := t.px, dchg := true } ∧
      (∀ r c, spriteCovers s x y n r c → pixel t.px r c = !pixel s.px r c) ∧
      (∀ r c, ¬ spriteCovers s x y n r c → pixel t.px r c = pixel s.px r c) ∧
      (∀ r, r ≠ 15 → t.reg r = s.reg r) ∧
      (spriteCollides s x y n → t.reg 15 = 1) ∧ (¬ spriteCollides s x y n → t.reg 15 = 0)

/-- Drawing the same sprite twice at the same coordinates restores the display; where the sprite is not empty and its
pixels were unset, the first draw sets VF to 0 and the second sets it to 1 (44_random_and_draw.md section 2; vector S8).
That I stays between the draws is D19 (entry 18). The coordinate registers are not VF, which the first draw
overwrites. -/
def Obligations.DrawingTwiceRestoresTheDisplay : Prop :=
  ∀ (x y : RegIx) (n : Nat) s t, n < 16 → x ≠ 15 → y ≠ 15 → exec (.drw x y n) s = .next t →
    ∃ u, exec (.drw x y n) t = .next u ∧ u.px = s.px ∧
      ((∃ r c, spriteCovers s x y n r c) → (∀ r c, spriteCovers s x y n r c → pixel s.px r c = false) →
        t.reg 15 = 0 ∧ u.reg 15 = 1)

/-! ### Keys and timers (45_keys_and_timers.md) -/

/-- 45_keys_and_timers.md section 1: with Vx at most 15 SKP and SKNP add 2 to PC when key[Vx] is down, respectively up;
with Vx above 15 both fault with Vx (decision D8, entry 8). -/
def Obligations.KeySkipsTestTheKey : Prop :=
  ∀ x : RegIx, decodeWord (0xE#4 ++ regBits x ++ 0x9E#8) = .ok (.skp x) ∧
    decodeWord (0xE#4 ++ regBits x ++ 0xA1#8) = .ok (.sknp x) ∧
    (∀ s, ∀ k : KeyIx, (s.reg x).toNat = k.val →
      exec (.skp x) s = .next { s with pc := if s.key[k] = true then s.pc + 2 else s.pc } ∧
      exec (.sknp x) s = .next { s with pc := if s.key[k] = true then s.pc else s.pc + 2 }) ∧
    ∀ s, 15 < (s.reg x).toNat →
      exec (.skp x) s = .fault (.outOfBounds .keyIndex ((s.reg x).setWidth 16)) ∧
      exec (.sknp x) s = .fault (.outOfBounds .keyIndex ((s.reg x).setWidth 16))

/-- R183, R187, R188: the timers are copied to and from Vx, nothing else changes. -/
def Obligations.TimerInstructionsCopyOneByte : Prop :=
  ∀ x : RegIx, decodeWord (0xF#4 ++ regBits x ++ 0x07#8) = .ok (.ldVxDt x) ∧
    decodeWord (0xF#4 ++ regBits x ++ 0x15#8) = .ok (.ldDtVx x) ∧
    decodeWord (0xF#4 ++ regBits x ++ 0x18#8) = .ok (.ldStVx x) ∧
    ∀ s, (∃ t, exec (.ldVxDt x) s = .next t ∧ RegsBecome s t fun r => if r = x then s.dt else s.reg r) ∧
      exec (.ldDtVx x) s = .next { s with dt := s.reg x } ∧
      exec (.ldStVx x) s = .next { s with st := s.reg x }

/-- 45_keys_and_timers.md section 2: with no key down PC goes back to pc0 and nothing else changes; with a key down the
index of a key that is down goes to Vx. That a key already down completes the instruction at once, and that a waiting one
answers Ok, is the spec's decision D25 (entry 21, marked unsafe). Which key when several are down is the open parameter
KEY_PICK (decision D9), a free value (entry 4). -/
def Obligations.KeyWaitTakesAKeyThatIsDown : Prop :=
  ∀ x : RegIx, decodeWord (0xF#4 ++ regBits x ++ 0x0A#8) = .ok (.ldVxK x) ∧
    (∀ s, (∀ k : KeyIx, s.key[k] = false) → exec (.ldVxK x) s = .next { s with pc := s.pc - 2 }) ∧
    ∀ s, (∃ k : KeyIx, s.key[k] = true) → ∃ t, ∃ k : KeyIx, exec (.ldVxK x) s = .next t ∧ s.key[k] = true ∧
      RegsBecome s t fun r => if r = x then BitVec.ofNat 8 k.val else s.reg r

/-- A waiting step leaves the entire state as it was, PC included (45_keys_and_timers.md section 2; decision D25,
entry 21). -/
def Obligations.WaitingStepChangesNothing : Prop :=
  ∀ s x, fetch s = .ok (.ldVxK x) → (∀ k : KeyIx, s.key[k] = false) →
    step s = .next s ∧ ∀ font b, perform font (.step b) s = (.ok, s)

/-! ### The whole machine -/

/-- Who may write what (10_state.md section 1, the column "written by"), for every instruction. That the block transfers
leave I is the spec's decision D19 (entry 18), that RET leaves the popped entry is D22 (entry 19), and that DRW, and it
alone, sets the display-changed flag is D11 (entry 10). -/
def Obligations.OnlyTheListedInstructionsWriteEachField : Prop :=
  ∀ i s t, exec i s = .next t →
    (t.i ≠ s.i → ∃ x nnn, i = .ldI nnn ∨ i = .addI x ∨ i = .ldF x) ∧
    (t.stack ≠ s.stack → ∃ nnn, i = .call nnn) ∧
    (t.sp ≠ s.sp → i = .ret ∨ ∃ nnn, i = .call nnn) ∧
    (t.mem ≠ s.mem → ∃ x, i = .ldB x ∨ i = .storeRegs x) ∧
    (t.px ≠ s.px ∨ t.dchg ≠ s.dchg → ∃ x y n, i = .drw x y n) ∧
    t.key = s.key ∧
    (t.dt ≠ s.dt → ∃ x, i = .ldDtVx x) ∧
    (t.st ≠ s.st → ∃ x, i = .ldStVx x) ∧
    (t.pc ≠ s.pc → i = .ret ∨ (∃ nnn, i = .jp nnn ∨ i = .call nnn ∨ i = .jpV0 nnn) ∨
      (∃ x nn, i = .seImm x nn ∨ i = .sneImm x nn) ∨ (∃ x y, i = .seReg x y ∨ i = .sneReg x y) ∨
      ∃ x, i = .skp x ∨ i = .sknp x ∨ i = .ldVxK x)

/-- A register is changed only by an instruction that names it as its destination, or, for VF, by one with a flag
(10_state.md section 2). -/
def Obligations.RegistersChangeOnlyWhereNamed : Prop :=
  ∀ i s t r, exec i s = .next t → r ∉ destRegs i → t.reg r = s.reg r

/-- No instruction changes a byte below 80, in any state with canonical memory and whatever those bytes are
(20_memory.md section 4; the spec's decision D7, entry 8). -/
def Obligations.NoInstructionWritesTheGlyphTable : Prop :=
  ∀ i s t a, s.mem.wf → exec i s = .next t → a < 80 → t.byte a = s.byte a

/-- The invariant holds after reset over every font, `State.reset` and its default font among them (entry 2). -/
def Obligations.ResetHasTheInvariant : Prop :=
  CoreInv Config.defaultFont State.reset ∧ ∀ font, CoreInv font (State.resetWith font)

/-- Every step that completes keeps the invariant: memory canonical (entry 13), the glyph table as it was seeded, whatever
the font (decision D7, entry 8), PC at most 4350, every live stack entry even and at most 4096 (decision D4, entry 12). -/
def Obligations.StepKeepsTheInvariant : Prop := ∀ font s t, CoreInv font s → step s = .next t → CoreInv font t

/-- Every operation of the caller keeps the invariant, so every state any interleaving (decision D24, entry 24) reaches
from reset has it, whatever the font. That it is kept where an operation faults is decision D3 (entry 14), the even
return addresses rest on the fetch check D4 (entry 12), the glyph clause on D7 (entry 8), the start at 0x200 on D2
(entry 1), the refusals of `load` and `set_key` are D15 and D16 (entry 15), and the canonical form is the model's own
(entry 13). -/
def Obligations.EveryReachableStateHasTheInvariant : Prop :=
  (∀ font op s, CoreInv font s → CoreInv font (perform font op s).2) ∧ ∀ font s, Reachable font s → CoreInv font s

/-- A faulting operation changes nothing (60_exceptions.md section 1; the spec's decision D3, entry 14), and a step that
faulted faults the same way again, whatever the draws (decision D10, entry 3). -/
def Obligations.FaultsChangeNothingAndRepeat : Prop :=
  (∀ font op s f, (perform font op s).1 = .fault f → (perform font op s).2 = s) ∧
  ∀ font s b b' f, (perform font (.step b) s).1 = .fault f →
    perform font (.step b') (perform font (.step b) s).2 = (.fault f, s)

/-- No instruction reads ST or the display-changed flag: two states that differ in these alone step alike
(10_state.md section 6; the flag is decision D11, entry 10). -/
def Obligations.SoundTimerAndChangedFlagDoNotInterfere : Prop :=
  ∀ s b c, (∀ t, step s = .next t → ∃ b' c', step { s with st := b, dchg := c } = .next { t with st := b', dchg := c' }) ∧
    ∀ f, step s = .fault f → step { s with st := b, dchg := c } = .fault f

/-- Nothing observes the stale entries of the stack: two states that differ in these alone step alike and differ in these
alone afterwards (10_state.md section 5; decision D22, entry 19). -/
def Obligations.StaleStackEntriesDoNotInterfere : Prop :=
  ∀ s s', SameButStale s s' → (∀ t, step s = .next t → ∃ t', step s' = .next t' ∧ SameButStale t t') ∧
    ∀ f, step s = .fault f → step s' = .fault f

/-! ### Memory -/

/-- A write is read back at its address, and every other address reads as before; a write of several bytes likewise
(20_memory.md sections 2 and 5). -/
def Obligations.ReadAfterWrite : Prop :=
  ∀ m : Memory, m.wf → (∀ a b c, (m.write a b).read c = if c = a then b else m.read c) ∧
    ∀ a bs c, (m.writeBytes a bs).read c =
      if h : a ≤ c ∧ c - a < bs.length then bs[c - a]'h.2 else m.read c

/-- The canonical form is one: memories in it that read alike everywhere are equal, and a write inside the address space
keeps it. The form is the model's own (entry 13). -/
def Obligations.CanonicalMemoryIsUnique : Prop :=
  (∀ m m' : Memory, m.wf → m'.wf → (∀ a, m.read a = m'.read a) → m = m') ∧
  ∀ (m : Memory) a b, m.wf → a < 4096 → (m.write a b).wf

/-! ### The caller's operations (60_exceptions.md, 70_reset_and_hazards.md) -/

/-- R220: a tick cannot fault; n ticks take n from each timer, down to 0 and no further, and touch nothing else; so a
timer loaded with v reaches 0 after exactly v ticks. -/
def Obligations.TicksCountDownToZero : Prop :=
  (∀ font s, (perform font .tickTimer s).1 = .ok) ∧ ∀ font s n, ∃ t,
    performAll font (List.replicate n .tickTimer) s = t ∧ t = { s with dt := t.dt, st := t.st } ∧
    t.dt.toNat = s.dt.toNat - n ∧ t.st.toNat = s.st.toNat - n

/-- 60_exceptions.md section 4: set_key writes one flag; an index above 15 faults and changes nothing (decision D16,
entry 15). The value an index above 65535 is reported with is the model's choice (entry 7), so the clause stops there. -/
def Obligations.SetKeyWritesOneFlag : Prop :=
  ∀ font s down, (∀ k : KeyIx, ∃ t, perform font (.setKey k.val down) s = (.ok, t) ∧ t = { s with key := t.key } ∧
      ∀ j : KeyIx, t.key[j] = if j = k then down else s.key[j]) ∧
    ∀ index, 15 < index → index ≤ 65535 →
      perform font (.setKey index down) s = (.fault (.outOfBounds .keyIndex (BitVec.ofNat 16 index)), s)

/-- 70_reset_and_hazards.md section 2: load copies at most 3584 bytes to 0x200 onward and touches nothing else; more are
refused whole (decision D15, entry 15). -/
def Obligations.LoadCopiesTheImage : Prop :=
  ∀ font s bytes, (s.mem.wf → bytes.length ≤ 3584 →
      ∃ t, perform font (.load bytes) s = (.ok, t) ∧ BytesBecome s t 0x200 bytes) ∧
    (3584 < bytes.length → perform font (.load bytes) s =
      (.fault (.outOfBounds .loadSize (BitVec.ofNat 16 (min bytes.length 65535))), s))

/-- After reset and load, from any state, the first instruction fetched is the word of the first two bytes of the image
(70_reset_and_hazards.md section 3; PC_RESET is decision D2, entry 1). -/
def Obligations.FirstInstructionIsTheStartOfTheImage : Prop :=
  ∀ font s (hi lo : Byte) rest i, rest.length + 2 ≤ 3584 → decodeWord (hi ++ lo) = .ok i →
    fetch (performAll font [.reset, .load (hi :: lo :: rest)] s) = .ok i

/-- R225: all 2048 pixels, row-major, and reading them changes nothing. -/
def Obligations.DisplayReadIsRowMajor : Prop :=
  ∀ font s, ∃ bits, perform font .display s = (.pixels bits, s) ∧ bits.length = 2048 ∧
    ∀ (r : Fin 32) (c : Fin 64), bits[r.val * 64 + c.val]? = some (pixel s.px r c)

/-- 60_exceptions.md sections 3 and 4: the reads give ST and the flag and change nothing, the acknowledgement clears the
flag and changes nothing else (decision D11 for the flag, entry 10). -/
def Obligations.TimerAndFlagReadsChangeNothing : Prop :=
  ∀ font s, perform font .soundTimer s = (.byte s.st, s) ∧ perform font .displayChanged s = (.bit s.dchg, s) ∧
    perform font .ackDisplay s = (.ok, { s with dchg := false })
end

