-- ==== Sys2Proof/Laws/State.lean ====
section
/-! SUPPORT. One lemma per field per update of State, true by rfl, so that no later proof unfolds a record update. -/

namespace Sys2Proof.Machine

variable (s : State)

/-! ### setReg -/

@[simp] theorem State.setReg_v (x : RegIx) (b : Byte) : (s.setReg x b).v = s.v.set x b := rfl
@[simp] theorem State.setReg_i (x : RegIx) (b : Byte) : (s.setReg x b).i = s.i := rfl
@[simp] theorem State.setReg_pc (x : RegIx) (b : Byte) : (s.setReg x b).pc = s.pc := rfl
@[simp] theorem State.setReg_stack (x : RegIx) (b : Byte) : (s.setReg x b).stack = s.stack := rfl
@[simp] theorem State.setReg_sp (x : RegIx) (b : Byte) : (s.setReg x b).sp = s.sp := rfl
@[simp] theorem State.setReg_mem (x : RegIx) (b : Byte) : (s.setReg x b).mem = s.mem := rfl
@[simp] theorem State.setReg_px (x : RegIx) (b : Byte) : (s.setReg x b).px = s.px := rfl
@[simp] theorem State.setReg_key (x : RegIx) (b : Byte) : (s.setReg x b).key = s.key := rfl
@[simp] theorem State.setReg_dt (x : RegIx) (b : Byte) : (s.setReg x b).dt = s.dt := rfl
@[simp] theorem State.setReg_st (x : RegIx) (b : Byte) : (s.setReg x b).st = s.st := rfl
@[simp] theorem State.setReg_dchg (x : RegIx) (b : Byte) : (s.setReg x b).dchg = s.dchg := rfl
@[simp] theorem State.setReg_rnd (x : RegIx) (b : Byte) : (s.setReg x b).rnd = s.rnd := rfl
@[simp] theorem State.setReg_draws (x : RegIx) (b : Byte) : (s.setReg x b).draws = s.draws := rfl
@[simp] theorem State.setReg_byte (x : RegIx) (b : Byte) (addr : Nat) : (s.setReg x b).byte addr = s.byte addr := rfl

/-! ### setRegs -/

@[simp] theorem State.setRegs_i (bs : List Byte) : (s.setRegs bs).i = s.i := rfl
@[simp] theorem State.setRegs_pc (bs : List Byte) : (s.setRegs bs).pc = s.pc := rfl
@[simp] theorem State.setRegs_stack (bs : List Byte) : (s.setRegs bs).stack = s.stack := rfl
@[simp] theorem State.setRegs_sp (bs : List Byte) : (s.setRegs bs).sp = s.sp := rfl
@[simp] theorem State.setRegs_mem (bs : List Byte) : (s.setRegs bs).mem = s.mem := rfl
@[simp] theorem State.setRegs_px (bs : List Byte) : (s.setRegs bs).px = s.px := rfl
@[simp] theorem State.setRegs_key (bs : List Byte) : (s.setRegs bs).key = s.key := rfl
@[simp] theorem State.setRegs_dt (bs : List Byte) : (s.setRegs bs).dt = s.dt := rfl
@[simp] theorem State.setRegs_st (bs : List Byte) : (s.setRegs bs).st = s.st := rfl
@[simp] theorem State.setRegs_dchg (bs : List Byte) : (s.setRegs bs).dchg = s.dchg := rfl
@[simp] theorem State.setRegs_rnd (bs : List Byte) : (s.setRegs bs).rnd = s.rnd := rfl
@[simp] theorem State.setRegs_draws (bs : List Byte) : (s.setRegs bs).draws = s.draws := rfl
@[simp] theorem State.setRegs_byte (bs : List Byte) (addr : Nat) : (s.setRegs bs).byte addr = s.byte addr := rfl

/-! ### setI -/

@[simp] theorem State.setI_v (a : Word) : (s.setI a).v = s.v := rfl
@[simp] theorem State.setI_i (a : Word) : (s.setI a).i = a := rfl
@[simp] theorem State.setI_pc (a : Word) : (s.setI a).pc = s.pc := rfl
@[simp] theorem State.setI_stack (a : Word) : (s.setI a).stack = s.stack := rfl
@[simp] theorem State.setI_sp (a : Word) : (s.setI a).sp = s.sp := rfl
@[simp] theorem State.setI_mem (a : Word) : (s.setI a).mem = s.mem := rfl
@[simp] theorem State.setI_px (a : Word) : (s.setI a).px = s.px := rfl
@[simp] theorem State.setI_key (a : Word) : (s.setI a).key = s.key := rfl
@[simp] theorem State.setI_dt (a : Word) : (s.setI a).dt = s.dt := rfl
@[simp] theorem State.setI_st (a : Word) : (s.setI a).st = s.st := rfl
@[simp] theorem State.setI_dchg (a : Word) : (s.setI a).dchg = s.dchg := rfl
@[simp] theorem State.setI_rnd (a : Word) : (s.setI a).rnd = s.rnd := rfl
@[simp] theorem State.setI_draws (a : Word) : (s.setI a).draws = s.draws := rfl
@[simp] theorem State.setI_reg (a : Word) (r : RegIx) : (s.setI a).reg r = s.reg r := rfl
@[simp] theorem State.setI_byte (a : Word) (addr : Nat) : (s.setI a).byte addr = s.byte addr := rfl

/-! ### setPc -/

@[simp] theorem State.setPc_v (a : Word) : (s.setPc a).v = s.v := rfl
@[simp] theorem State.setPc_i (a : Word) : (s.setPc a).i = s.i := rfl
@[simp] theorem State.setPc_pc (a : Word) : (s.setPc a).pc = a := rfl
@[simp] theorem State.setPc_stack (a : Word) : (s.setPc a).stack = s.stack := rfl
@[simp] theorem State.setPc_sp (a : Word) : (s.setPc a).sp = s.sp := rfl
@[simp] theorem State.setPc_mem (a : Word) : (s.setPc a).mem = s.mem := rfl
@[simp] theorem State.setPc_px (a : Word) : (s.setPc a).px = s.px := rfl
@[simp] theorem State.setPc_key (a : Word) : (s.setPc a).key = s.key := rfl
@[simp] theorem State.setPc_dt (a : Word) : (s.setPc a).dt = s.dt := rfl
@[simp] theorem State.setPc_st (a : Word) : (s.setPc a).st = s.st := rfl
@[simp] theorem State.setPc_dchg (a : Word) : (s.setPc a).dchg = s.dchg := rfl
@[simp] theorem State.setPc_rnd (a : Word) : (s.setPc a).rnd = s.rnd := rfl
@[simp] theorem State.setPc_draws (a : Word) : (s.setPc a).draws = s.draws := rfl
@[simp] theorem State.setPc_reg (a : Word) (r : RegIx) : (s.setPc a).reg r = s.reg r := rfl
@[simp] theorem State.setPc_byte (a : Word) (addr : Nat) : (s.setPc a).byte addr = s.byte addr := rfl

/-! ### setDt -/

@[simp] theorem State.setDt_v (b : Byte) : (s.setDt b).v = s.v := rfl
@[simp] theorem State.setDt_i (b : Byte) : (s.setDt b).i = s.i := rfl
@[simp] theorem State.setDt_pc (b : Byte) : (s.setDt b).pc = s.pc := rfl
@[simp] theorem State.setDt_stack (b : Byte) : (s.setDt b).stack = s.stack := rfl
@[simp] theorem State.setDt_sp (b : Byte) : (s.setDt b).sp = s.sp := rfl
@[simp] theorem State.setDt_mem (b : Byte) : (s.setDt b).mem = s.mem := rfl
@[simp] theorem State.setDt_px (b : Byte) : (s.setDt b).px = s.px := rfl
@[simp] theorem State.setDt_key (b : Byte) : (s.setDt b).key = s.key := rfl
@[simp] theorem State.setDt_dt (b : Byte) : (s.setDt b).dt = b := rfl
@[simp] theorem State.setDt_st (b : Byte) : (s.setDt b).st = s.st := rfl
@[simp] theorem State.setDt_dchg (b : Byte) : (s.setDt b).dchg = s.dchg := rfl
@[simp] theorem State.setDt_rnd (b : Byte) : (s.setDt b).rnd = s.rnd := rfl
@[simp] theorem State.setDt_draws (b : Byte) : (s.setDt b).draws = s.draws := rfl
@[simp] theorem State.setDt_reg (b : Byte) (r : RegIx) : (s.setDt b).reg r = s.reg r := rfl
@[simp] theorem State.setDt_byte (b : Byte) (addr : Nat) : (s.setDt b).byte addr = s.byte addr := rfl

/-! ### setSt -/

@[simp] theorem State.setSt_v (b : Byte) : (s.setSt b).v = s.v := rfl
@[simp] theorem State.setSt_i (b : Byte) : (s.setSt b).i = s.i := rfl
@[simp] theorem State.setSt_pc (b : Byte) : (s.setSt b).pc = s.pc := rfl
@[simp] theorem State.setSt_stack (b : Byte) : (s.setSt b).stack = s.stack := rfl
@[simp] theorem State.setSt_sp (b : Byte) : (s.setSt b).sp = s.sp := rfl
@[simp] theorem State.setSt_mem (b : Byte) : (s.setSt b).mem = s.mem := rfl
@[simp] theorem State.setSt_px (b : Byte) : (s.setSt b).px = s.px := rfl
@[simp] theorem State.setSt_key (b : Byte) : (s.setSt b).key = s.key := rfl
@[simp] theorem State.setSt_dt (b : Byte) : (s.setSt b).dt = s.dt := rfl
@[simp] theorem State.setSt_st (b : Byte) : (s.setSt b).st = b := rfl
@[simp] theorem State.setSt_dchg (b : Byte) : (s.setSt b).dchg = s.dchg := rfl
@[simp] theorem State.setSt_rnd (b : Byte) : (s.setSt b).rnd = s.rnd := rfl
@[simp] theorem State.setSt_draws (b : Byte) : (s.setSt b).draws = s.draws := rfl
@[simp] theorem State.setSt_reg (b : Byte) (r : RegIx) : (s.setSt b).reg r = s.reg r := rfl
@[simp] theorem State.setSt_byte (b : Byte) (addr : Nat) : (s.setSt b).byte addr = s.byte addr := rfl

/-! ### setDchg -/

@[simp] theorem State.setDchg_v (c : Bool) : (s.setDchg c).v = s.v := rfl
@[simp] theorem State.setDchg_i (c : Bool) : (s.setDchg c).i = s.i := rfl
@[simp] theorem State.setDchg_pc (c : Bool) : (s.setDchg c).pc = s.pc := rfl
@[simp] theorem State.setDchg_stack (c : Bool) : (s.setDchg c).stack = s.stack := rfl
@[simp] theorem State.setDchg_sp (c : Bool) : (s.setDchg c).sp = s.sp := rfl
@[simp] theorem State.setDchg_mem (c : Bool) : (s.setDchg c).mem = s.mem := rfl
@[simp] theorem State.setDchg_px (c : Bool) : (s.setDchg c).px = s.px := rfl
@[simp] theorem State.setDchg_key (c : Bool) : (s.setDchg c).key = s.key := rfl
@[simp] theorem State.setDchg_dt (c : Bool) : (s.setDchg c).dt = s.dt := rfl
@[simp] theorem State.setDchg_st (c : Bool) : (s.setDchg c).st = s.st := rfl
@[simp] theorem State.setDchg_dchg (c : Bool) : (s.setDchg c).dchg = c := rfl
@[simp] theorem State.setDchg_rnd (c : Bool) : (s.setDchg c).rnd = s.rnd := rfl
@[simp] theorem State.setDchg_draws (c : Bool) : (s.setDchg c).draws = s.draws := rfl
@[simp] theorem State.setDchg_reg (c : Bool) (r : RegIx) : (s.setDchg c).reg r = s.reg r := rfl
@[simp] theorem State.setDchg_byte (c : Bool) (addr : Nat) : (s.setDchg c).byte addr = s.byte addr := rfl

/-! ### setPx -/

@[simp] theorem State.setPx_v (p : Display) : (s.setPx p).v = s.v := rfl
@[simp] theorem State.setPx_i (p : Display) : (s.setPx p).i = s.i := rfl
@[simp] theorem State.setPx_pc (p : Display) : (s.setPx p).pc = s.pc := rfl
@[simp] theorem State.setPx_stack (p : Display) : (s.setPx p).stack = s.stack := rfl
@[simp] theorem State.setPx_sp (p : Display) : (s.setPx p).sp = s.sp := rfl
@[simp] theorem State.setPx_mem (p : Display) : (s.setPx p).mem = s.mem := rfl
@[simp] theorem State.setPx_px (p : Display) : (s.setPx p).px = p := rfl
@[simp] theorem State.setPx_key (p : Display) : (s.setPx p).key = s.key := rfl
@[simp] theorem State.setPx_dt (p : Display) : (s.setPx p).dt = s.dt := rfl
@[simp] theorem State.setPx_st (p : Display) : (s.setPx p).st = s.st := rfl
@[simp] theorem State.setPx_dchg (p : Display) : (s.setPx p).dchg = s.dchg := rfl
@[simp] theorem State.setPx_rnd (p : Display) : (s.setPx p).rnd = s.rnd := rfl
@[simp] theorem State.setPx_draws (p : Display) : (s.setPx p).draws = s.draws := rfl
@[simp] theorem State.setPx_reg (p : Display) (r : RegIx) : (s.setPx p).reg r = s.reg r := rfl
@[simp] theorem State.setPx_byte (p : Display) (addr : Nat) : (s.setPx p).byte addr = s.byte addr := rfl

/-! ### setKeyFlag -/

@[simp] theorem State.setKeyFlag_v (k : KeyIx) (d : Bool) : (s.setKeyFlag k d).v = s.v := rfl
@[simp] theorem State.setKeyFlag_i (k : KeyIx) (d : Bool) : (s.setKeyFlag k d).i = s.i := rfl
@[simp] theorem State.setKeyFlag_pc (k : KeyIx) (d : Bool) : (s.setKeyFlag k d).pc = s.pc := rfl
@[simp] theorem State.setKeyFlag_stack (k : KeyIx) (d : Bool) : (s.setKeyFlag k d).stack = s.stack := rfl
@[simp] theorem State.setKeyFlag_sp (k : KeyIx) (d : Bool) : (s.setKeyFlag k d).sp = s.sp := rfl
@[simp] theorem State.setKeyFlag_mem (k : KeyIx) (d : Bool) : (s.setKeyFlag k d).mem = s.mem := rfl
@[simp] theorem State.setKeyFlag_px (k : KeyIx) (d : Bool) : (s.setKeyFlag k d).px = s.px := rfl
@[simp] theorem State.setKeyFlag_key (k : KeyIx) (d : Bool) : (s.setKeyFlag k d).key = s.key.set k d := rfl
@[simp] theorem State.setKeyFlag_dt (k : KeyIx) (d : Bool) : (s.setKeyFlag k d).dt = s.dt := rfl
@[simp] theorem State.setKeyFlag_st (k : KeyIx) (d : Bool) : (s.setKeyFlag k d).st = s.st := rfl
@[simp] theorem State.setKeyFlag_dchg (k : KeyIx) (d : Bool) : (s.setKeyFlag k d).dchg = s.dchg := rfl
@[simp] theorem State.setKeyFlag_rnd (k : KeyIx) (d : Bool) : (s.setKeyFlag k d).rnd = s.rnd := rfl
@[simp] theorem State.setKeyFlag_draws (k : KeyIx) (d : Bool) : (s.setKeyFlag k d).draws = s.draws := rfl
@[simp] theorem State.setKeyFlag_reg (k : KeyIx) (d : Bool) (r : RegIx) : (s.setKeyFlag k d).reg r = s.reg r := rfl
@[simp] theorem State.setKeyFlag_byte (k : KeyIx) (d : Bool) (addr : Nat) : (s.setKeyFlag k d).byte addr = s.byte addr := rfl

/-! ### setMem -/

@[simp] theorem State.setMem_v (m : Memory) : (s.setMem m).v = s.v := rfl
@[simp] theorem State.setMem_i (m : Memory) : (s.setMem m).i = s.i := rfl
@[simp] theorem State.setMem_pc (m : Memory) : (s.setMem m).pc = s.pc := rfl
@[simp] theorem State.setMem_stack (m : Memory) : (s.setMem m).stack = s.stack := rfl
@[simp] theorem State.setMem_sp (m : Memory) : (s.setMem m).sp = s.sp := rfl
@[simp] theorem State.setMem_mem (m : Memory) : (s.setMem m).mem = m := rfl
@[simp] theorem State.setMem_px (m : Memory) : (s.setMem m).px = s.px := rfl
@[simp] theorem State.setMem_key (m : Memory) : (s.setMem m).key = s.key := rfl
@[simp] theorem State.setMem_dt (m : Memory) : (s.setMem m).dt = s.dt := rfl
@[simp] theorem State.setMem_st (m : Memory) : (s.setMem m).st = s.st := rfl
@[simp] theorem State.setMem_dchg (m : Memory) : (s.setMem m).dchg = s.dchg := rfl
@[simp] theorem State.setMem_rnd (m : Memory) : (s.setMem m).rnd = s.rnd := rfl
@[simp] theorem State.setMem_draws (m : Memory) : (s.setMem m).draws = s.draws := rfl
@[simp] theorem State.setMem_reg (m : Memory) (r : RegIx) : (s.setMem m).reg r = s.reg r := rfl

/-! ### advance -/

@[simp] theorem State.advance_v : s.advance.v = s.v := rfl
@[simp] theorem State.advance_i : s.advance.i = s.i := rfl
@[simp] theorem State.advance_pc : s.advance.pc = s.pc + 2 := rfl
@[simp] theorem State.advance_stack : s.advance.stack = s.stack := rfl
@[simp] theorem State.advance_sp : s.advance.sp = s.sp := rfl
@[simp] theorem State.advance_mem : s.advance.mem = s.mem := rfl
@[simp] theorem State.advance_px : s.advance.px = s.px := rfl
@[simp] theorem State.advance_key : s.advance.key = s.key := rfl
@[simp] theorem State.advance_dt : s.advance.dt = s.dt := rfl
@[simp] theorem State.advance_st : s.advance.st = s.st := rfl
@[simp] theorem State.advance_dchg : s.advance.dchg = s.dchg := rfl
@[simp] theorem State.advance_rnd : s.advance.rnd = s.rnd := rfl
@[simp] theorem State.advance_draws : s.advance.draws = s.draws := rfl
@[simp] theorem State.advance_reg (r : RegIx) : s.advance.reg r = s.reg r := rfl
@[simp] theorem State.advance_byte (addr : Nat) : s.advance.byte addr = s.byte addr := rfl

/-! ### resetWith: all but memory is as in `State.reset` -/

@[simp] theorem State.resetWith_v (font : Font) : (State.resetWith font).v = State.reset.v := rfl
@[simp] theorem State.resetWith_i (font : Font) : (State.resetWith font).i = State.reset.i := rfl
@[simp] theorem State.resetWith_pc (font : Font) : (State.resetWith font).pc = State.reset.pc := rfl
@[simp] theorem State.resetWith_stack (font : Font) : (State.resetWith font).stack = State.reset.stack := rfl
@[simp] theorem State.resetWith_sp (font : Font) : (State.resetWith font).sp = State.reset.sp := rfl
@[simp] theorem State.resetWith_px (font : Font) : (State.resetWith font).px = State.reset.px := rfl
@[simp] theorem State.resetWith_key (font : Font) : (State.resetWith font).key = State.reset.key := rfl
@[simp] theorem State.resetWith_dt (font : Font) : (State.resetWith font).dt = State.reset.dt := rfl
@[simp] theorem State.resetWith_st (font : Font) : (State.resetWith font).st = State.reset.st := rfl
@[simp] theorem State.resetWith_dchg (font : Font) : (State.resetWith font).dchg = State.reset.dchg := rfl
@[simp] theorem State.resetWith_rnd (font : Font) : (State.resetWith font).rnd = State.reset.rnd := rfl
@[simp] theorem State.resetWith_draws (font : Font) : (State.resetWith font).draws = State.reset.draws := rfl

/-! ### Reading registers back -/

/-- A register write is read back at its own index and nowhere else. -/
@[simp] theorem State.reg_setReg (x : RegIx) (b : Byte) (r : RegIx) :
    (s.setReg x b).reg r = if r = x then b else s.reg r := by
  simp only [State.reg, State.setReg, Fin.getElem_fin, Vector.getElem_set, Fin.ext_iff, eq_comm]

/-- A block write is read back where the block reaches, and nowhere else. -/
@[simp] theorem State.reg_setRegs (bs : List Byte) (r : RegIx) : (s.setRegs bs).reg r = bs.getD r.val (s.reg r) := by
  simp [State.reg, State.setRegs]

/-- Two states that agree on every register agree on the register file. -/
theorem State.v_ext {s t : State} (h : ∀ r, s.reg r = t.reg r) : s.v = t.v :=
  Vector.ext fun k hk => h ⟨k, hk⟩

/-- The frame of a register write. -/
theorem State.setReg_regsBecome (x : RegIx) (b : Byte) :
    RegsBecome s (s.setReg x b) fun r => if r = x then b else s.reg r :=
  ⟨rfl, fun r => s.reg_setReg x b r⟩

end Sys2Proof.Machine
end

