-- ==== Sys2Proof/Laws/Memory.lean ====
section
/-! SUPPORT. The laws of memory: a read after a write, and the canonical form every operation keeps. -/

namespace Sys2Proof.Machine

/-- The addresses of a memory rise. -/
abbrev Memory.Rising (m : Memory) : Prop := m.Pairwise fun c d => c.1 < d.1

/-- An address below every listed one reads as unlisted. -/
theorem Memory.read_of_lt {m : Memory} {a : Nat} (h : ∀ c ∈ m, a < c.1) : m.read a = Memory.blank a := by
  induction m with
  | nil => rfl
  | cons c rest ih =>
    have hc : ¬ c.1 = a := by have := h c (by simp); omega
    simp only [Memory.read, hc, if_false]
    exact ih fun d hd => h d (by simp [hd])

/-- Read after write: the value written at its address, the old value everywhere else. -/
theorem Memory.read_write {m : Memory} (hm : m.Rising) (a : Nat) (b : Byte) (c : Nat) :
    (m.write a b).read c = if c = a then b else m.read c := by
  induction m with
  | nil =>
    by_cases hb : b = Memory.blank a <;> by_cases hc : c = a <;> simp [Memory.write, Memory.read, hb, hc]
    exact fun h => absurd h.symm hc
  | cons d rest ih =>
    obtain ⟨k, e⟩ := d
    have hk : ∀ f ∈ rest, k < f.1 := fun f hf => (List.pairwise_cons.1 hm).1 f hf
    have hr := ih (List.pairwise_cons.1 hm).2
    rcases Nat.lt_trichotomy a k with h | h | h
    · have hbelow : Memory.read ((k, e) :: rest) a = Memory.blank a :=
        Memory.read_of_lt fun f hf => by
          rcases List.mem_cons.1 hf with rfl | hf
          · exact h
          · exact Nat.lt_trans h (hk f hf)
      by_cases hb : b = Memory.blank a
      · simp only [Memory.write, h, if_true, hb]
        split
        · next hc => rw [hc, hbelow]
        · rfl
      · simp only [Memory.write, h, if_true, hb, if_false]
        simp only [Memory.read, eq_comm (a := a) (b := c)]
    · subst h
      have hrest : Memory.read rest a = Memory.blank a := Memory.read_of_lt hk
      by_cases hb : b = Memory.blank a
      · simp only [Memory.write, Nat.lt_irrefl, if_false, if_true, hb, Memory.read]
        split
        · next hc => rw [hc, hrest]
        · next hc => rw [if_neg fun h => hc h.symm]
      · simp only [Memory.write, Nat.lt_irrefl, if_false, if_true, hb, Memory.read]
        split <;> rename_i hc <;> simp [hc, eq_comm]
    · have h1 : ¬ a < k := by omega
      have h2 : ¬ a = k := by omega
      simp only [Memory.write, h1, h2, if_false, Memory.read, hr]
      split <;> rename_i hc
      · have : ¬ c = a := by omega
        simp [this]
      · rfl

/-- Every entry a write leaves is an old one or the one written. -/
theorem Memory.mem_write {m : Memory} {a : Nat} {b : Byte} {c : Host.Cell} (h : c ∈ m.write a b) :
    c ∈ m ∨ (c = (a, b) ∧ b ≠ Memory.blank a) := by
  induction m with
  | nil =>
    by_cases hb : b = Memory.blank a
    · simp [Memory.write, hb] at h
    · simp [Memory.write, hb] at h; exact .inr ⟨h, hb⟩
  | cons d rest ih =>
    obtain ⟨k, e⟩ := d
    unfold Memory.write at h
    split_ifs at h with h1 hb h2 hb
    · exact .inl h
    · rcases List.mem_cons.1 h with rfl | h
      · exact .inr ⟨rfl, hb⟩
      · exact .inl h
    · exact .inl (List.mem_cons_of_mem _ h)
    · rcases List.mem_cons.1 h with rfl | h
      · exact .inr ⟨rfl, hb⟩
      · exact .inl (List.mem_cons_of_mem _ h)
    · rcases List.mem_cons.1 h with rfl | h
      · exact .inl (by simp)
      · exact (ih h).imp (List.mem_cons_of_mem _) id

/-- A write keeps the addresses rising. -/
theorem Memory.rising_write {m : Memory} (hm : m.Rising) (a : Nat) (b : Byte) : (m.write a b).Rising := by
  induction m with
  | nil => unfold Memory.write; split_ifs <;> simp [Memory.Rising]
  | cons d rest ih =>
    obtain ⟨k, e⟩ := d
    obtain ⟨hk, hr⟩ := List.pairwise_cons.1 hm
    unfold Memory.write
    split_ifs with h1 hb h2 hb
    · exact hm
    · refine List.pairwise_cons.2 ⟨fun f hf => ?_, hm⟩
      rcases List.mem_cons.1 hf with rfl | hf
      · exact h1
      · exact Nat.lt_trans h1 (hk f hf)
    · exact hr
    · subst h2; exact List.pairwise_cons.2 ⟨hk, hr⟩
    · refine List.pairwise_cons.2 ⟨fun f hf => ?_, ih hr⟩
      rcases Memory.mem_write hf with hf | ⟨rfl, -⟩
      · exact hk f hf
      · show k < a
        omega

/-- A write inside the address space keeps the canonical form. -/
theorem Memory.wf_write {m : Memory} (hm : m.wf) {a : Nat} (ha : a < Config.memSize) (b : Byte) : (m.write a b).wf := by
  refine ⟨Memory.rising_write hm.1 a b, fun c hc => ?_⟩
  rcases Memory.mem_write hc with h | ⟨rfl, hb⟩
  · exact hm.2 c h
  · exact ⟨ha, hb⟩

/-- A write of several bytes keeps the addresses rising. -/
theorem Memory.rising_writeBytes {m : Memory} (hm : m.Rising) (a : Nat) (bs : List Byte) :
    (m.writeBytes a bs).Rising := by
  induction bs generalizing m a with
  | nil => exact hm
  | cons b bs ih => exact ih (Memory.rising_write hm a b) (a + 1)

/-- A write of several bytes inside the address space keeps the canonical form. -/
theorem Memory.wf_writeBytes {m : Memory} (hm : m.wf) {a : Nat} {bs : List Byte}
    (ha : bs = [] ∨ a + bs.length ≤ Config.memSize) : (m.writeBytes a bs).wf := by
  induction bs generalizing m a with
  | nil => exact hm
  | cons b bs ih =>
    have ha : a + (bs.length + 1) ≤ Config.memSize := by simpa using ha
    refine ih (Memory.wf_write hm (by omega) b) (.inr ?_)
    omega

/-- Read after a write of several bytes: the bytes where they were written, the old value everywhere else. -/
theorem Memory.read_writeBytes {m : Memory} (hm : m.Rising) (a : Nat) (bs : List Byte) (c : Nat) :
    (m.writeBytes a bs).read c = if a ≤ c then bs.getD (c - a) (m.read c) else m.read c := by
  induction bs generalizing m a with
  | nil => simp [Memory.writeBytes]
  | cons b bs ih =>
    rw [Memory.writeBytes, ih (Memory.rising_write hm a b), Memory.read_write hm]
    rcases Nat.lt_trichotomy c a with h | rfl | h
    · have h1 : ¬ a + 1 ≤ c := by omega
      have h2 : ¬ a ≤ c := by omega
      have h3 : ¬ c = a := by omega
      simp [h1, h2, h3]
    · simp
    · have h1 : a + 1 ≤ c := by omega
      have h2 : a ≤ c := by omega
      have h3 : ¬ c = a := by omega
      obtain ⟨k, rfl⟩ : ∃ k, c = a + 1 + k := ⟨c - (a + 1), by omega⟩
      have h4 : a + 1 + k - a = k + 1 := by omega
      simp [h1, h2, h3, h4]

/-- What an address outside the list of entries reads as, and what one inside does. -/
theorem Memory.read_eq_of_mem {m : Memory} (hm : m.Rising) {c : Host.Cell} (hc : c ∈ m) : m.read c.1 = c.2 := by
  induction m with
  | nil => simp at hc
  | cons d rest ih =>
    obtain ⟨hk, hr⟩ := List.pairwise_cons.1 hm
    rcases List.mem_cons.1 hc with rfl | hc
    · simp [Memory.read]
    · have : ¬ d.1 = c.1 := by have := hk c hc; omega
      simp only [Memory.read, this, if_false]
      exact ih hr hc

/-- An address that reads as something else than unlisted is listed. -/
theorem Memory.mem_of_read_ne {m : Memory} {a : Nat} (h : m.read a ≠ Memory.blank a) : (a, m.read a) ∈ m := by
  induction m with
  | nil => exact absurd rfl h
  | cons d rest ih =>
    by_cases hd : d.1 = a
    · subst hd; simp [Memory.read]
    · simp only [Memory.read, hd, if_false] at h ⊢
      exact List.mem_cons_of_mem _ (ih h)

/-- Bytes read one by one. -/
@[simp] theorem Memory.length_readBytes (m : Memory) (a n : Nat) : (m.readBytes a n).length = n := by
  simp [Memory.readBytes]

@[simp] theorem Memory.getElem_readBytes (m : Memory) (a n k : Nat) (h : k < (m.readBytes a n).length) :
    (m.readBytes a n)[k] = m.read (a + k) := by
  simp [Memory.readBytes]

/-! ### Reset -/

/-- Memory is in canonical form after reset. -/
theorem wf_reset : State.reset.mem.wf := by decide

/-- Above the glyph table an unlisted address reads 0. -/
theorem Memory.blank_of_ge {a : Nat} (h : 80 ≤ a) : Memory.blank a = 0 :=
  List.getD_eq_default _ _ (by rw [Vector.length_toList]; exact h)

/-- Memory is in canonical form after reset over any font. -/
theorem wf_resetWith (font : Font) : (State.resetWith font).mem.wf :=
  Memory.wf_writeBytes wf_reset (.inr (by rw [Vector.length_toList]; decide))

/-- The glyph table after reset is the font. -/
theorem byte_resetWith (font : Font) (k : Fin 80) : (State.resetWith font).byte k.val = font[k] := by
  have h := Memory.read_writeBytes wf_reset.1 0 font.toList k.val
  rw [if_pos (Nat.zero_le _), List.getD_eq_getElem _ _ (by simp)] at h
  exact h.trans (by simp)

/-- Above the glyph table memory is zero after reset. -/
theorem byte_resetWith_of_ge (font : Font) {a : Nat} (h : 80 ≤ a) : (State.resetWith font).byte a = 0 := by
  have hr := Memory.read_writeBytes wf_reset.1 0 font.toList a
  rw [if_pos (Nat.zero_le _), List.getD_eq_default _ _ (by rw [Vector.length_toList]; exact h)] at hr
  exact hr.trans (Memory.blank_of_ge h)

end Sys2Proof.Machine
end

