-- ==== Sys2Proof/Laws/Ops.lean ====
section
/-! SUPPORT. One lemma per shared operation that says everything it can do; proofs cite these instead of unfolding. -/

namespace Sys2Proof.Machine

/-! ### Faults -/

@[simp] theorem orRaise_ok {α : Type} (a : α) (k : α → Result) : orRaise (.ok a) k = k a := rfl
@[simp] theorem orRaise_error {α : Type} (f : Fault) (k : α → Result) : orRaise (.error f) k = .fault f := rfl

/-- A checked operation that ends in a next state succeeded. -/
theorem orRaise_next {α : Type} {r : Except Fault α} {k : α → Result} {t : State} (h : orRaise r k = .next t) :
    ∃ a, r = .ok a ∧ k a = .next t := by
  cases r with
  | ok a => exact ⟨a, rfl, h⟩
  | error f => cases h

/-- A checked operation that ends in a fault raised it, or what followed did. -/
theorem orRaise_fault {α : Type} {r : Except Fault α} {k : α → Result} {f : Fault} (h : orRaise r k = .fault f) :
    r = .error f ∨ ∃ a, r = .ok a ∧ k a = .fault f := by
  cases r with
  | ok a => exact .inr ⟨a, rfl, h⟩
  | error g => cases h; exact .inl rfl

@[simp] theorem stateAfter_next (s t : State) : stateAfter s (.next t) = t := rfl
@[simp] theorem stateAfter_fault (s : State) (f : Fault) : stateAfter s (.fault f) = s := rfl

/-! ### Program counter -/

/-- A skip changes PC only, by 2 when taken. -/
theorem skipIf_eq (c : Bool) (s : State) : skipIf c s = { s with pc := if c then s.pc + 2 else s.pc } := by
  cases c <;> rfl

/-! ### Ranges -/

theorem reachesAbove_iff (base count : Nat) : reachesAbove base count = true ↔ 0 < count ∧ 4096 < base + count := by
  simp only [reachesAbove, decide_eq_true_eq]; omega

/-- A checked read: the bytes, or OutOfBounds(Read) at the lowest address above 4095. -/
theorem loadBytes_eq (s : State) (base count : Nat) :
    loadBytes s base count =
      if 0 < count ∧ 4096 < base + count then .error (.outOfBounds .read (lowestAbove base))
      else .ok (s.mem.readBytes base count) := by
  simp only [loadBytes, reachesAbove_iff]

/-- A checked write of at least one byte: all of it, or a fault and none of it. -/
theorem storeBytes_eq (s : State) (base : Nat) {bytes : List Byte} (hb : 0 < bytes.length) :
    storeBytes s base bytes =
      if 4096 < base + bytes.length then .error (.outOfBounds .write (lowestAbove base))
      else if base < 80 then .error (.outOfBounds .glyphWrite (BitVec.ofNat 16 base))
      else .ok (s.setMem (s.mem.writeBytes base bytes)) := by
  simp only [storeBytes, reachesAbove_iff, hb, true_and, Config.glyphSize]

/-- What a store that succeeds does: it writes inside 80..4095 and changes nothing but those bytes. -/
theorem storeBytes_ok {s t : State} {base : Nat} {bytes : List Byte} (hb : 0 < bytes.length)
    (h : storeBytes s base bytes = .ok t) :
    80 ≤ base ∧ base + bytes.length ≤ 4096 ∧ t = s.setMem (s.mem.writeBytes base bytes) := by
  rw [storeBytes_eq s base hb] at h
  split_ifs at h with h1 h2
  cases h
  exact ⟨by omega, by omega, rfl⟩

/-- The bytes after a store into a canonical memory. -/
theorem bytesBecome_writeBytes {s : State} (hm : s.mem.Rising) (base : Nat) (bytes : List Byte) :
    BytesBecome s (s.setMem (s.mem.writeBytes base bytes)) base bytes := by
  refine ⟨rfl, fun k hk => ?_, fun a ha => ?_⟩
  · simp [State.byte, Memory.read_writeBytes hm, hk]
  · simp only [State.byte, State.setMem_mem, Memory.read_writeBytes hm]
    rcases ha with ha | ha
    · rw [if_neg (by omega)]
    · rw [if_pos (by omega), List.getD_eq_default _ _ (by omega)]

/-! ### Stack -/

/-- A push at a depth below 16: the entry at the old depth, the depth one more, nothing else. -/
theorem push_ok {s t : State} {a : Word} (h : push a s = .ok t) :
    ∃ hlt : s.sp.val < 16, t = { s with stack := s.stack.set s.sp.val a hlt, sp := ⟨s.sp.val + 1, by omega⟩ } := by
  unfold push at h
  split at h
  · next hlt => cases h; exact ⟨hlt, rfl⟩
  · cases h

theorem push_error {s : State} {a : Word} {f : Fault} (h : push a s = .error f) : s.sp = 16 ∧ f = .stackOverflow := by
  unfold push at h
  split at h
  · cases h
  · next hlt => cases h; exact ⟨Fin.ext (by have := s.sp.isLt; simp; omega), rfl⟩

/-- A pop at a depth above 0: the depth one less, the entry there, nothing else. -/
theorem pop_ok {s t : State} {a : Word} (h : pop s = .ok (a, t)) :
    ∃ hlt : 0 < s.sp.val, a = s.stack[s.sp.val - 1]'(by omega) ∧ t = { s with sp := ⟨s.sp.val - 1, by omega⟩ } := by
  unfold pop at h
  split at h
  · next hlt => cases h; exact ⟨hlt, rfl, rfl⟩
  · cases h

theorem pop_error {s : State} {f : Fault} (h : pop s = .error f) : s.sp = 0 ∧ f = .stackUnderflow := by
  unfold pop at h
  split at h
  · cases h
  · next hlt => cases h; exact ⟨Fin.ext (by simp; omega), rfl⟩

/-! ### Keys and draws -/

/-- A register value as a key: below 16 the key of that number, else OutOfBounds(KeyIndex). -/
theorem keyOperand_ok {b : Byte} {k : KeyIx} (h : keyOperand b = .ok k) : b.toNat = k.val := by
  unfold keyOperand at h
  split at h
  · cases h; rfl
  · cases h

theorem keyOperand_of_lt {b : Byte} (h : b.toNat < 16) : keyOperand b = .ok ⟨b.toNat, h⟩ := dif_pos h

theorem keyOperand_of_ge {b : Byte} (h : 16 ≤ b.toNat) :
    keyOperand b = .error (.outOfBounds .keyIndex (b.setWidth 16)) := dif_neg (by omega)

theorem anyKeyDown_iff (k : Keys) : anyKeyDown k = true ↔ ∃ j : KeyIx, k[j] = true := by
  simp only [anyKeyDown, List.any_eq_true, id, exists_eq_right, Vector.mem_toList_iff, Vector.mem_iff_getElem]
  exact ⟨fun ⟨i, hi, h⟩ => ⟨⟨i, hi⟩, h⟩, fun ⟨j, h⟩ => ⟨j.val, j.isLt, h⟩⟩

theorem mem_keysDown (k : Keys) (j : KeyIx) : j ∈ keysDown k ↔ k[j] = true := by simp [keysDown]

/-- The picked key is one of the keys that are down. -/
theorem pickKey_mem {k : Keys} (h : anyKeyDown k = true) : pickKey k ∈ keysDown k := by
  obtain ⟨j, hj⟩ := (anyKeyDown_iff k).1 h
  have hmem := (mem_keysDown k j).2 hj
  unfold pickKey
  split
  · next hn => simp [hn] at hmem
  · next hi => simp [hi]
  · next hi =>
    split_ifs with hc
    · exact (mem_keysDown k _).2 hc
    · simp [hi]

/-- The picked key is down. -/
theorem pickKey_down {k : Keys} (h : anyKeyDown k = true) : k[pickKey k] = true :=
  (mem_keysDown k _).1 (pickKey_mem h)

/-- A draw changes nothing of the core's state. -/
theorem takeDraw_snd (s : State) :
    (takeDraw s).2 = { s with rnd := (takeDraw s).2.rnd, draws := (takeDraw s).2.draws } := by
  unfold takeDraw; split <;> rfl

/-! ### Display -/

/-- Inverting one pixel inverts that pixel and no other. -/
theorem pixel_togglePixel (p : Display) (r : Fin 32) (c : Fin 64) (r' : Fin 32) (c' : Fin 64) :
    pixel (togglePixel p r c) r' c' = if r' = r ∧ c' = c then !pixel p r c else pixel p r' c' := by
  simp only [pixel, togglePixel, Fin.getElem_fin, Vector.getElem_set, Fin.ext_iff]
  by_cases hr : r.val = r'.val
  · by_cases hc : c.val = c'.val
    · simp [hr, hc]
    · have hc' : ¬c'.val = c.val := fun h => hc h.symm
      simp [hr, hc, hc']
  · have hr' : ¬r'.val = r.val := fun h => hr h.symm
    simp [hr, hr']

/-! ### Fetch and step -/

/-- A fetch that succeeds read an instruction at an even address of at most 4094. -/
theorem fetch_ok {s : State} {i : Instr} (h : fetch s = .ok i) :
    s.pc.toNat % 2 = 0 ∧ s.pc.toNat ≤ 4094 ∧
      decodeWord (wordOfBytes (s.byte s.pc.toNat) (s.byte (s.pc.toNat + 1))) = .ok i := by
  unfold fetch at h
  split at h
  · next hf =>
    simp only [fetchable, decide_eq_true_eq] at hf
    refine ⟨hf.1, hf.2, ?_⟩
    have hb : fetchBytes s = [s.byte s.pc.toNat, s.byte (s.pc.toNat + 1)] := rfl
    rw [hb] at h
    simp only [decode] at h
    generalize decodeWord (wordOfBytes (s.byte s.pc.toNat) (s.byte (s.pc.toNat + 1))) = d at h ⊢
    cases d with
    | ok j => simp only [Except.map] at h; cases h; rfl
    | error e => cases e <;> simp only [Except.map] at h <;> cases h
  · cases h

/-- Where PC can be fetched from, the fetch is the decoding of the word there. -/
theorem fetch_of_word {s : State} {i : Instr} (h1 : s.pc.toNat % 2 = 0) (h2 : s.pc.toNat ≤ 4094)
    (h : decodeWord (wordOfBytes (s.byte s.pc.toNat) (s.byte (s.pc.toNat + 1))) = .ok i) : fetch s = .ok i := by
  have hf : fetchable s.pc = true := by simp [fetchable, h1, h2]
  have hb : fetchBytes s = [s.byte s.pc.toNat, s.byte (s.pc.toNat + 1)] := rfl
  simp only [fetch, hf, if_true, hb, decode, h, Except.map]

/-- What a step that completes did: it fetched an instruction and ran it with PC advanced. -/
theorem step_next {s t : State} (h : step s = .next t) : ∃ i, fetch s = .ok i ∧ exec i s.advance = .next t :=
  orRaise_next h

/-- A step whose fetch succeeds is the instruction's meaning with PC advanced. -/
theorem step_of_fetch {s : State} {i : Instr} (h : fetch s = .ok i) : step s = exec i s.advance := by
  simp [step, h]

end Sys2Proof.Machine
end

