-- ==== Sys2Proof/Laws/Decode.lean ====
section
/-! SUPPORT. The fields of a word and the words assembled from fields, as arithmetic (spec/30_encoding.md R81, R82):
what `a ++ b` and the slices of R10 mean for the numbers behind them. -/

namespace Sys2Proof

/-! ### Fields as quotients and remainders -/

theorem d1_toNat (w : Word) : (d1 w).toNat = w.toNat / 4096 := by
  have := w.isLt
  simp only [d1, BitVec.extractLsb'_toNat, Nat.shiftRight_eq_div_pow]; omega
theorem d2_toNat (w : Word) : (d2 w).toNat = w.toNat / 256 % 16 := by
  simp only [d2, BitVec.extractLsb'_toNat, Nat.shiftRight_eq_div_pow]
theorem d3_toNat (w : Word) : (d3 w).toNat = w.toNat / 16 % 16 := by
  simp only [d3, BitVec.extractLsb'_toNat, Nat.shiftRight_eq_div_pow]
theorem d4_toNat (w : Word) : (d4 w).toNat = w.toNat % 16 := by
  simp only [d4, BitVec.extractLsb'_toNat, Nat.shiftRight_eq_div_pow]; omega
theorem fieldNN_toNat (w : Word) : (fieldNN w).toNat = w.toNat % 256 := by
  simp only [fieldNN, BitVec.extractLsb'_toNat, Nat.shiftRight_eq_div_pow]; omega
theorem fieldNNN_toNat (w : Word) : (fieldNNN w).toNat = w.toNat % 4096 := by
  simp only [fieldNNN, BitVec.extractLsb'_toNat, Nat.shiftRight_eq_div_pow]; omega
theorem fieldX_val (w : Word) : (fieldX w).val = w.toNat / 256 % 16 := by
  simp [fieldX, regOf, d2_toNat]
theorem fieldY_val (w : Word) : (fieldY w).val = w.toNat / 16 % 16 := by
  simp [fieldY, regOf, d3_toNat]
theorem fieldN_eq (w : Word) : fieldN w = w.toNat % 16 := d4_toNat w

@[simp] theorem regBits_toNat (x : RegIx) : (regBits x).toNat = x.val := by
  have := x.isLt
  simp [regBits]

/-! ### Words as sums -/

/-- `a ++ b` concatenates, `a` in the high bits (R10). -/
theorem toNat_concat {n m : Nat} (a : BitVec n) (b : BitVec m) : (a ++ b).toNat = a.toNat * 2 ^ m + b.toNat := by
  rw [BitVec.toNat_append, ← Nat.shiftLeft_add_eq_or_of_lt b.isLt, Nat.shiftLeft_eq]

theorem toNat_formatNNN (a : BitVec 4) (nnn : Imm12) :
    BitVec.toNat (w := 16) (a ++ nnn) = a.toNat * 4096 + nnn.toNat := toNat_concat a nnn

theorem toNat_formatXNN (a x : BitVec 4) (nn : Byte) :
    BitVec.toNat (w := 16) (a ++ x ++ nn) = (a.toNat * 16 + x.toNat) * 256 + nn.toNat :=
  (toNat_concat (a ++ x) nn).trans (by rw [toNat_concat]; rfl)

theorem toNat_formatXYN (a x y n : BitVec 4) :
    BitVec.toNat (w := 16) (a ++ x ++ y ++ n) = ((a.toNat * 16 + x.toNat) * 16 + y.toNat) * 16 + n.toNat :=
  (toNat_concat (a ++ x ++ y) n).trans (by rw [toNat_concat, toNat_concat]; rfl)

theorem toNat_wordOfBytes (hi lo : Byte) : (wordOfBytes hi lo).toNat = hi.toNat * 256 + lo.toNat := toNat_concat hi lo

/-- A word read back from its bytes (R50). -/
@[simp] theorem wordOfBytes_bytesOfWord (w : Word) :
    wordOfBytes (w.extractLsb' 8 8) (w.extractLsb' 0 8) = w := by
  apply BitVec.eq_of_toNat_eq
  have := w.isLt
  rw [toNat_wordOfBytes]
  simp only [BitVec.extractLsb'_toNat, Nat.shiftRight_eq_div_pow]; omega

/-! ### Fields of assembled words -/

section NNN
variable (a : BitVec 4) (nnn : Imm12)

@[simp] theorem d1_formatNNN : (d1 (a ++ nnn)).toNat = a.toNat := by
  have := a.isLt; have := nnn.isLt
  rw [d1_toNat, toNat_formatNNN]; omega
@[simp] theorem fieldNNN_formatNNN : fieldNNN (a ++ nnn) = nnn := by
  apply BitVec.eq_of_toNat_eq
  have := nnn.isLt
  rw [fieldNNN_toNat, toNat_formatNNN]; omega
end NNN

section XNN
variable (a : BitVec 4) (x : RegIx) (nn : Byte)

@[simp] theorem d1_formatXNN : (d1 (a ++ regBits x ++ nn)).toNat = a.toNat := by
  have := a.isLt; have := nn.isLt; have := x.isLt
  rw [d1_toNat, toNat_formatXNN, regBits_toNat]; omega
@[simp] theorem fieldX_formatXNN : fieldX (a ++ regBits x ++ nn) = x := by
  apply Fin.ext
  have := nn.isLt; have := x.isLt
  rw [fieldX_val, toNat_formatXNN, regBits_toNat]; omega
@[simp] theorem fieldNN_formatXNN : fieldNN (a ++ regBits x ++ nn) = nn := by
  apply BitVec.eq_of_toNat_eq
  have := nn.isLt
  rw [fieldNN_toNat, toNat_formatXNN, regBits_toNat]; omega
end XNN

section XYN
variable (a : BitVec 4) (x : RegIx) (y n : BitVec 4)

@[simp] theorem d1_formatXYN : (d1 (a ++ regBits x ++ y ++ n)).toNat = a.toNat := by
  have := a.isLt; have := y.isLt; have := n.isLt; have := x.isLt
  rw [d1_toNat, toNat_formatXYN, regBits_toNat]; omega
@[simp] theorem fieldX_formatXYN : fieldX (a ++ regBits x ++ y ++ n) = x := by
  apply Fin.ext
  have := y.isLt; have := n.isLt; have := x.isLt
  rw [fieldX_val, toNat_formatXYN, regBits_toNat]; omega
@[simp] theorem fieldY_formatXYN (z : RegIx) : fieldY (a ++ regBits x ++ regBits z ++ n) = z := by
  apply Fin.ext
  have := n.isLt; have := z.isLt
  rw [fieldY_val, toNat_formatXYN, regBits_toNat, regBits_toNat]; omega
@[simp] theorem d4_formatXYN : d4 (a ++ regBits x ++ y ++ n) = n := by
  apply BitVec.eq_of_toNat_eq
  have := n.isLt
  rw [d4_toNat, toNat_formatXYN]; omega
end XYN

/-! ### Words from their fields, and the masks of the opcode table (R83) -/

/-- Every word is its four nibbles (R81). -/
theorem word_eq_nibbles (w : Word) : w = d1 w ++ d2 w ++ d3 w ++ d4 w := by
  apply BitVec.eq_of_toNat_eq
  rw [toNat_formatXYN, d1_toNat, d2_toNat, d3_toNat, d4_toNat]; omega

/-- A mask of whole nibbles keeps the nibbles it covers and clears the others. -/
theorem nibbles_and (a x y n a' x' y' n' : BitVec 4) :
    (a ++ x ++ y ++ n : Word) &&& (a' ++ x' ++ y' ++ n' : Word) =
      ((a &&& a') ++ (x &&& x') ++ (y &&& y') ++ (n &&& n') : Word) := by
  have h := BitVec.and_append (x₁ := a ++ x ++ y) (x₂ := a' ++ x' ++ y') (y₁ := n) (y₂ := n')
  exact h.trans (by rw [BitVec.and_append, BitVec.and_append])

@[simp] theorem and_nibbleF (a : BitVec 4) : a &&& 15#4 = a := by
  rw [show (15#4) = BitVec.allOnes 4 from rfl, BitVec.and_allOnes]

/-- The formats with a mask of whole nibbles: `w & mask` in terms of the nibbles. -/
theorem and_maskF000 (w : Word) : w &&& 0xF000#16 = (d1 w ++ 0#4 ++ 0#4 ++ 0#4 : Word) := by
  conv_lhs => rw [word_eq_nibbles w, show 0xF000#16 = (0xF#4 ++ 0#4 ++ 0#4 ++ 0#4 : Word) from rfl, nibbles_and]
  simp

theorem and_maskF00F (w : Word) : w &&& 0xF00F#16 = (d1 w ++ 0#4 ++ 0#4 ++ d4 w : Word) := by
  conv_lhs => rw [word_eq_nibbles w, show 0xF00F#16 = (0xF#4 ++ 0#4 ++ 0#4 ++ 0xF#4 : Word) from rfl, nibbles_and]
  simp

theorem and_maskF0FF (w : Word) : w &&& 0xF0FF#16 = (d1 w ++ 0#4 ++ d3 w ++ d4 w : Word) := by
  conv_lhs => rw [word_eq_nibbles w, show 0xF0FF#16 = (0xF#4 ++ 0#4 ++ 0xF#4 ++ 0xF#4 : Word) from rfl, nibbles_and]
  simp

theorem and_maskFFFF (w : Word) : w &&& 0xFFFF#16 = w := by
  rw [show (0xFFFF#16) = BitVec.allOnes 16 from rfl, BitVec.and_allOnes]

end Sys2Proof
end

