-- ==== Sys2Proof/Laws/Draw.lean ====
section
/-! SUPPORT. What drawing a sprite does to the display and when it collides (spec/44_random_and_draw.md R172 to R174):
the loops of the model against the pixels a sprite covers. -/

namespace Sys2Proof.Machine

/-- The first `m` columns of one sprite row cover display pixel (r, c). -/
def rowCovers (x0 y0 row : Nat) (b : Byte) (m : Nat) (r : Fin 32) (c : Fin 64) : Prop :=
  r = displayRow y0 row ∧ ∃ col, col < m ∧ c = displayCol x0 col ∧ b.getLsbD (7 - col) = true

/-- The sprite rows `bytes`, the first of them sprite row `row`, cover display pixel (r, c). -/
def rowsCover (x0 y0 row : Nat) (bytes : List Byte) (r : Fin 32) (c : Fin 64) : Prop :=
  ∃ k, ∃ h : k < bytes.length, rowCovers x0 y0 (row + k) bytes[k] 8 r c

theorem displayCol_injective {x0 a b : Nat} (ha : a < 64) (hb : b < 64) (h : displayCol x0 a = displayCol x0 b) :
    a = b := by
  have := congrArg Fin.val h
  simp only [displayCol, Fin.val_ofNat] at this
  omega

theorem displayRow_injective {y0 a b : Nat} (h32 : a < b + 32 ∧ b < a + 32) (h : displayRow y0 a = displayRow y0 b) :
    a = b := by
  have := congrArg Fin.val h
  simp only [displayRow, Fin.val_ofNat] at this
  omega

/-- The first `m` columns of a row: they invert exactly the pixels they cover, and collide when one of those was set. -/
theorem drawRow_prefix (x0 y0 row : Nat) (b : Byte) (d : Display × Bool) (m : Nat) (hm : m ≤ 8) :
    let e := (List.range m).foldl (drawPixel x0 y0 row b) d
    (∀ r c, rowCovers x0 y0 row b m r c → pixel e.1 r c = !pixel d.1 r c) ∧
    (∀ r c, ¬ rowCovers x0 y0 row b m r c → pixel e.1 r c = pixel d.1 r c) ∧
    (e.2 = true ↔ d.2 = true ∨ ∃ r c, rowCovers x0 y0 row b m r c ∧ pixel d.1 r c = true) := by
  induction m with
  | zero => simp [rowCovers]
  | succ m ih =>
    obtain ⟨h1, h2, h3⟩ := ih (by omega)
    simp only [List.range_succ, List.foldl_append, List.foldl_cons, List.foldl_nil]
    generalize (List.range m).foldl (drawPixel x0 y0 row b) d = e at h1 h2 h3 ⊢
    have hsplit : ∀ r c, rowCovers x0 y0 row b (m + 1) r c ↔ rowCovers x0 y0 row b m r c ∨
        (r = displayRow y0 row ∧ c = displayCol x0 m ∧ b.getLsbD (7 - m) = true) := by
      intro r c
      constructor
      · rintro ⟨hr, col, hc, hcol, hb⟩
        rcases Nat.lt_succ_iff_lt_or_eq.1 hc with hc | rfl
        · exact .inl ⟨hr, col, hc, hcol, hb⟩
        · exact .inr ⟨hr, hcol, hb⟩
      · rintro (⟨hr, col, hc, hcol, hb⟩ | ⟨hr, hcol, hb⟩)
        · exact ⟨hr, col, by omega, hcol, hb⟩
        · exact ⟨hr, m, by omega, hcol, hb⟩
    have hfresh : ¬ rowCovers x0 y0 row b m (displayRow y0 row) (displayCol x0 m) := by
      rintro ⟨-, col, hc, hcol, -⟩
      have := displayCol_injective (by omega) (by omega) hcol
      omega
    by_cases hb : b.getLsbD (7 - m) = true
    · simp only [drawPixel, hb, if_true]
      refine ⟨fun r c hrc => ?_, fun r c hrc => ?_, ?_⟩
      · rw [pixel_togglePixel]
        split
        · next h => obtain ⟨rfl, rfl⟩ := h; rw [h2 _ _ hfresh]
        · next h =>
          rcases (hsplit r c).1 hrc with hrc | ⟨hr, hc, -⟩
          · exact h1 r c hrc
          · exact absurd ⟨hr, hc⟩ h
      · rw [hsplit] at hrc
        rw [pixel_togglePixel, if_neg fun h => hrc (.inr ⟨h.1, h.2, hb⟩)]
        exact h2 r c fun h => hrc (.inl h)
      · rw [Bool.or_eq_true, h3, or_assoc, h2 _ _ hfresh]
        refine or_congr_right ⟨?_, ?_⟩
        · rintro (⟨r, c, hrc, hp⟩ | hp)
          · exact ⟨r, c, (hsplit r c).2 (.inl hrc), hp⟩
          · exact ⟨_, _, (hsplit _ _).2 (.inr ⟨rfl, rfl, hb⟩), hp⟩
        · rintro ⟨r, c, hrc, hp⟩
          rcases (hsplit r c).1 hrc with hrc | ⟨rfl, rfl, -⟩
          · exact .inl ⟨r, c, hrc, hp⟩
          · exact .inr hp
    · have hsame : ∀ r c, rowCovers x0 y0 row b (m + 1) r c ↔ rowCovers x0 y0 row b m r c := fun r c => by
        rw [hsplit]; simp [hb]
      simp only [drawPixel, hb, hsame]
      exact ⟨h1, h2, h3⟩

/-- The rows of a sprite no taller than the display: they invert exactly the pixels they cover, and collide when one of
those was set. -/
theorem drawRows_spec (x0 y0 row : Nat) (bytes : List Byte) (d : Display × Bool) (hlen : bytes.length ≤ 32) :
    (∀ r c, rowsCover x0 y0 row bytes r c → pixel (drawRows x0 y0 row bytes d).1 r c = !pixel d.1 r c) ∧
    (∀ r c, ¬ rowsCover x0 y0 row bytes r c → pixel (drawRows x0 y0 row bytes d).1 r c = pixel d.1 r c) ∧
    ((drawRows x0 y0 row bytes d).2 = true ↔
      d.2 = true ∨ ∃ r c, rowsCover x0 y0 row bytes r c ∧ pixel d.1 r c = true) := by
  induction bytes generalizing row d with
  | nil => simp [drawRows, rowsCover]
  | cons b bs ih =>
    have hlen' : bs.length + 1 ≤ 32 := by simpa using hlen
    obtain ⟨p1, p2, p3⟩ := drawRow_prefix x0 y0 row b d 8 (Nat.le_refl 8)
    obtain ⟨q1, q2, q3⟩ := ih (row + 1) (drawRow x0 y0 row b d) (by omega)
    have hsplit : ∀ r c, rowsCover x0 y0 row (b :: bs) r c ↔
        rowCovers x0 y0 row b 8 r c ∨ rowsCover x0 y0 (row + 1) bs r c := by
      intro r c
      constructor
      · rintro ⟨k, hk, h⟩
        cases k with
        | zero => exact .inl h
        | succ k => exact .inr ⟨k, by simpa using hk, by simpa [Nat.add_assoc, Nat.add_comm 1 k] using h⟩
      · rintro (h | ⟨k, hk, h⟩)
        · exact ⟨0, by simp, h⟩
        · exact ⟨k + 1, by simpa using hk, by simpa [Nat.add_assoc, Nat.add_comm 1 k] using h⟩
    have hdisj : ∀ r c, rowCovers x0 y0 row b 8 r c → ¬ rowsCover x0 y0 (row + 1) bs r c := by
      rintro r c ⟨hr, -⟩ ⟨k, hk, hr', -⟩
      have := displayRow_injective (by omega) (hr.symm.trans hr')
      omega
    refine ⟨fun r c h => ?_, fun r c h => ?_, ?_⟩
    · rcases (hsplit r c).1 h with h | h
      · exact (q2 r c (hdisj r c h)).trans (p1 r c h)
      · exact (q1 r c h).trans (congrArg _ (p2 r c fun h' => hdisj r c h' h))
    · rw [hsplit, not_or] at h
      exact (q2 r c h.2).trans (p2 r c h.1)
    · show (drawRows x0 y0 (row + 1) bs (drawRow x0 y0 row b d)).2 = true ↔ _
      rw [q3]
      change (drawRow x0 y0 row b d).2 = true ↔ _ at p3
      rw [p3, or_assoc]
      refine or_congr_right ⟨?_, ?_⟩
      · rintro (⟨r, c, h, hp⟩ | ⟨r, c, h, hp⟩)
        · exact ⟨r, c, (hsplit r c).2 (.inl h), hp⟩
        · exact ⟨r, c, (hsplit r c).2 (.inr h), (p2 r c fun h' => hdisj r c h' h).symm.trans hp⟩
      · rintro ⟨r, c, h, hp⟩
        rcases (hsplit r c).1 h with h | h
        · exact .inl ⟨r, c, h, hp⟩
        · exact .inr ⟨r, c, h, (p2 r c fun h' => hdisj r c h' h).trans hp⟩

/-- The pixels the rows read from memory cover are those `spriteCovers` names. -/
theorem rowsCover_iff (s : State) (x y : RegIx) (n : Nat) (r : Fin 32) (c : Fin 64) :
    rowsCover (s.reg x).toNat (s.reg y).toNat 0 (s.mem.readBytes (effAddr s 0) n) r c ↔ spriteCovers s x y n r c := by
  constructor
  · rintro ⟨k, hk, hr, col, hc, hcol, hb⟩
    rw [Memory.length_readBytes] at hk
    rw [Memory.getElem_readBytes] at hb
    refine ⟨k, col, hk, hc, ?_, ?_, hb⟩
    · simp [hr, displayRow]
    · simp [hcol, displayCol]
  · rintro ⟨k, col, hk, hc, hr, hcol, hb⟩
    refine ⟨k, by simpa using hk, Fin.ext (by simpa [displayRow] using hr), col, hc,
      Fin.ext (by simpa [displayCol] using hcol), ?_⟩
    rw [Memory.getElem_readBytes]
    exact hb

end Sys2Proof.Machine
end

