-- ==== Sys2Proof/Laws/Exec.lean ====
section
/-! SUPPORT. For each instruction that can fault or branch, all it can have done when it answers a next state. The others
are `.next` of one update, by definition. -/

namespace Sys2Proof.Machine

theorem length_bcdDigits (b : Byte) : (bcdDigits b).length = 3 := rfl

theorem length_regBlock (s : State) (x : RegIx) : (regBlock s x).length = x.val + 1 := by
  have := x.isLt
  simp [regBlock]

/-- RET popped a live entry (R105). -/
theorem execRet_next {s t : State} (h : execRet s = .next t) :
    ∃ hlt : 0 < s.sp.val, t = { s with sp := ⟨s.sp.val - 1, by omega⟩, pc := s.stack[s.sp.val - 1]'(by omega) } := by
  obtain ⟨⟨a, u⟩, hp, ht⟩ := orRaise_next h
  obtain ⟨hlt, rfl, rfl⟩ := pop_ok hp
  cases ht
  exact ⟨hlt, rfl⟩

/-- CALL pushed the advanced PC below depth 16 (R107). -/
theorem execCall_next {nnn : Imm12} {s t : State} (h : execCall nnn s = .next t) :
    ∃ hlt : s.sp.val < 16, t = { s with
      stack := s.stack.set s.sp.val s.pc hlt, sp := ⟨s.sp.val + 1, by omega⟩, pc := immAddr nnn } := by
  obtain ⟨u, hp, ht⟩ := orRaise_next h
  obtain ⟨hlt, rfl⟩ := push_ok hp
  cases ht
  exact ⟨hlt, rfl⟩

/-- DRW changed the display, VF and the flag (R172). -/
theorem execDrw_next {x y : RegIx} {n : Nat} {s t : State} (h : execDrw x y n s = .next t) :
    (n = 0 ∨ s.i.toNat + n ≤ 4096) ∧
      t = (((s.setPx (drawRows (s.reg x).toNat (s.reg y).toNat 0 (s.mem.readBytes s.i.toNat n) (s.px, false)).1).setReg vf
        (flagByte (drawRows (s.reg x).toNat (s.reg y).toNat 0 (s.mem.readBytes s.i.toNat n) (s.px, false)).2)).setDchg
        true) := by
  obtain ⟨bytes, hb, ht⟩ := orRaise_next h
  rw [loadBytes_eq] at hb
  split at hb
  · cases hb
  · next hr =>
    cases hb; cases ht
    refine ⟨?_, rfl⟩
    rw [show effAddr s 0 = s.i.toNat from rfl] at hr
    omega

/-- LD B stored three bytes inside 80..4095 (R156). -/
theorem execLdB_next {x : RegIx} {s t : State} (h : execLdB x s = .next t) :
    80 ≤ s.i.toNat ∧ s.i.toNat + 3 ≤ 4096 ∧ t = s.setMem (s.mem.writeBytes s.i.toNat (bcdDigits (s.reg x))) := by
  obtain ⟨u, hu, ht⟩ := orRaise_next h
  cases ht
  exact storeBytes_ok (by rw [length_bcdDigits]; omega) hu

/-- LD [I], Vx stored x + 1 bytes inside 80..4095 (R158). -/
theorem execStoreRegs_next {x : RegIx} {s t : State} (h : execStoreRegs x s = .next t) :
    80 ≤ s.i.toNat ∧ s.i.toNat + x.val + 1 ≤ 4096 ∧ t = s.setMem (s.mem.writeBytes s.i.toNat (regBlock s x)) := by
  obtain ⟨u, hu, ht⟩ := orRaise_next h
  cases ht
  have hs := storeBytes_ok (by rw [length_regBlock]; omega) hu
  rw [length_regBlock] at hs
  exact hs

/-- LD Vx, [I] loaded x + 1 bytes below 4096 (R160). -/
theorem execLoadRegs_next {x : RegIx} {s t : State} (h : execLoadRegs x s = .next t) :
    s.i.toNat + x.val + 1 ≤ 4096 ∧ t = s.setRegs (s.mem.readBytes s.i.toNat (x.val + 1)) := by
  obtain ⟨bytes, hb, ht⟩ := orRaise_next h
  rw [loadBytes_eq] at hb
  split at hb
  · cases hb
  · next hr =>
    cases hb; cases ht
    refine ⟨?_, rfl⟩
    rw [show effAddr s 0 = s.i.toNat from rfl] at hr
    omega

/-- SKP changed PC only (R180). -/
theorem execSkp_next {x : RegIx} {s t : State} (h : execSkp x s = .next t) :
    ∃ k : KeyIx, (s.reg x).toNat = k.val ∧ t = { s with pc := if s.key[k] = true then s.pc + 2 else s.pc } := by
  obtain ⟨k, hk, ht⟩ := orRaise_next h
  cases ht
  exact ⟨k, keyOperand_ok hk, skipIf_eq _ _⟩

/-- SKNP changed PC only (R181). -/
theorem execSknp_next {x : RegIx} {s t : State} (h : execSknp x s = .next t) :
    ∃ k : KeyIx, (s.reg x).toNat = k.val ∧ t = { s with pc := if s.key[k] = true then s.pc else s.pc + 2 } := by
  obtain ⟨k, hk, ht⟩ := orRaise_next h
  cases ht
  refine ⟨k, keyOperand_ok hk, ?_⟩
  rw [skipIf_eq]
  cases s.key[k] <;> rfl

/-- LD Vx, K waited, with no key down, or took a key that is down (R184). -/
theorem execLdVxK_next {x : RegIx} {s t : State} (h : execLdVxK x s = .next t) :
    ((∀ k : KeyIx, s.key[k] = false) ∧ t = s.setPc (s.pc - 2)) ∨
      ∃ k : KeyIx, s.key[k] = true ∧ t = s.setReg x (BitVec.ofNat 8 k.val) := by
  unfold execLdVxK at h
  split at h
  · next hk => cases h; exact .inr ⟨_, pickKey_down hk, rfl⟩
  · next hk =>
    cases h
    refine .inl ⟨fun k => ?_, rfl⟩
    rw [anyKeyDown_iff, not_exists] at hk
    simpa using hk k

end Sys2Proof.Machine
end

