-- ==== Sys2Proof/Laws/PerInstr.lean ====
section
/-! SUPPORT. The per-instruction family `FixedBits` (LAWS.json): the word the encoder writes carries the fixed bits of
the instruction's row of the opcode table, and that row is in the table (spec/30_encoding.md R83, R86). -/

namespace Sys2Proof.Laws.FixedBits

/-- The encoding of `i` matches the row of `i`, a row of the table. -/
def Statement (i : Instr) : Prop := i.row.covers (encode i) = true ∧ i.row ∈ opcodeTable

/-! Masked words of the three shapes an encoder writes. -/

theorem covers_nnn (m : String) (a : BitVec 4) (nnn : Imm12) :
    Row.covers ⟨m, 0xF000, a ++ 0#4 ++ 0#4 ++ 0#4⟩ (a ++ nnn) = true := by
  have h : d1 (a ++ nnn) = a := BitVec.eq_of_toNat_eq (d1_formatNNN a nnn)
  simp only [Row.covers, beq_iff_eq]
  exact (and_maskF000 _).trans (by rw [h])

theorem covers_xnn (m : String) (a : BitVec 4) (x : RegIx) (nn : Byte) :
    Row.covers ⟨m, 0xF000, a ++ 0#4 ++ 0#4 ++ 0#4⟩ (a ++ regBits x ++ nn) = true := by
  have h : d1 (a ++ regBits x ++ nn) = a := BitVec.eq_of_toNat_eq (d1_formatXNN a x nn)
  simp only [Row.covers, beq_iff_eq]
  exact (and_maskF000 _).trans (by rw [h])

theorem covers_xyf (m : String) (a : BitVec 4) (x : RegIx) (y n : BitVec 4) :
    Row.covers ⟨m, 0xF00F, a ++ 0#4 ++ 0#4 ++ n⟩ (a ++ regBits x ++ y ++ n) = true := by
  have h : d1 (a ++ regBits x ++ y ++ n) = a := BitVec.eq_of_toNat_eq (d1_formatXYN a x y n)
  simp only [Row.covers, beq_iff_eq]
  exact (and_maskF00F _).trans (by rw [h, d4_formatXYN])

theorem covers_xyn (m : String) (a : BitVec 4) (x : RegIx) (y n : BitVec 4) :
    Row.covers ⟨m, 0xF000, a ++ 0#4 ++ 0#4 ++ 0#4⟩ (a ++ regBits x ++ y ++ n) = true := by
  have h : d1 (a ++ regBits x ++ y ++ n) = a := BitVec.eq_of_toNat_eq (d1_formatXYN a x y n)
  simp only [Row.covers, beq_iff_eq]
  exact (and_maskF000 _).trans (by rw [h])

/-- Format XFF has sixteen words a row. -/
theorem covers_xff (i : RegIx → Instr) (h : ∀ x, (i x).row.covers (encode (i x)) = true := by decide) (x : RegIx) :
    (i x).row.covers (encode (i x)) = true := h x

/-! One lemma per constructor. -/

theorem nop : Statement .nop := ⟨by decide, by decide⟩
theorem ret : Statement .ret := ⟨by decide, by decide⟩
theorem jp (nnn : Imm12) : Statement (.jp nnn) := ⟨covers_nnn _ _ nnn, by simp [opcodeTable, oneOfEach, Instr.row]⟩
theorem call (nnn : Imm12) : Statement (.call nnn) := ⟨covers_nnn _ _ nnn, by simp [opcodeTable, oneOfEach, Instr.row]⟩
theorem seImm (x : RegIx) (nn : Byte) : Statement (.seImm x nn) := ⟨covers_xnn _ _ x nn, by simp [opcodeTable, oneOfEach, Instr.row]⟩
theorem sneImm (x : RegIx) (nn : Byte) : Statement (.sneImm x nn) := ⟨covers_xnn _ _ x nn, by simp [opcodeTable, oneOfEach, Instr.row]⟩
theorem seReg (x : RegIx) (y : RegIx) : Statement (.seReg x y) := ⟨covers_xyf _ _ x (regBits y) _, by simp [opcodeTable, oneOfEach, Instr.row]⟩
theorem ldImm (x : RegIx) (nn : Byte) : Statement (.ldImm x nn) := ⟨covers_xnn _ _ x nn, by simp [opcodeTable, oneOfEach, Instr.row]⟩
theorem addImm (x : RegIx) (nn : Byte) : Statement (.addImm x nn) := ⟨covers_xnn _ _ x nn, by simp [opcodeTable, oneOfEach, Instr.row]⟩
theorem ldReg (x : RegIx) (y : RegIx) : Statement (.ldReg x y) := ⟨covers_xyf _ _ x (regBits y) _, by simp [opcodeTable, oneOfEach, Instr.row]⟩
theorem orReg (x : RegIx) (y : RegIx) : Statement (.orReg x y) := ⟨covers_xyf _ _ x (regBits y) _, by simp [opcodeTable, oneOfEach, Instr.row]⟩
theorem andReg (x : RegIx) (y : RegIx) : Statement (.andReg x y) := ⟨covers_xyf _ _ x (regBits y) _, by simp [opcodeTable, oneOfEach, Instr.row]⟩
theorem xorReg (x : RegIx) (y : RegIx) : Statement (.xorReg x y) := ⟨covers_xyf _ _ x (regBits y) _, by simp [opcodeTable, oneOfEach, Instr.row]⟩
theorem addReg (x : RegIx) (y : RegIx) : Statement (.addReg x y) := ⟨covers_xyf _ _ x (regBits y) _, by simp [opcodeTable, oneOfEach, Instr.row]⟩
theorem sub (x : RegIx) (y : RegIx) : Statement (.sub x y) := ⟨covers_xyf _ _ x (regBits y) _, by simp [opcodeTable, oneOfEach, Instr.row]⟩
theorem shr (x : RegIx) : Statement (.shr x) := ⟨covers_xyf _ _ x 0 _, by simp [opcodeTable, oneOfEach, Instr.row]⟩
theorem subn (x : RegIx) (y : RegIx) : Statement (.subn x y) := ⟨covers_xyf _ _ x (regBits y) _, by simp [opcodeTable, oneOfEach, Instr.row]⟩
theorem shl (x : RegIx) : Statement (.shl x) := ⟨covers_xyf _ _ x 0 _, by simp [opcodeTable, oneOfEach, Instr.row]⟩
theorem sneReg (x : RegIx) (y : RegIx) : Statement (.sneReg x y) := ⟨covers_xyf _ _ x (regBits y) _, by simp [opcodeTable, oneOfEach, Instr.row]⟩
theorem ldI (nnn : Imm12) : Statement (.ldI nnn) := ⟨covers_nnn _ _ nnn, by simp [opcodeTable, oneOfEach, Instr.row]⟩
theorem jpV0 (nnn : Imm12) : Statement (.jpV0 nnn) := ⟨covers_nnn _ _ nnn, by simp [opcodeTable, oneOfEach, Instr.row]⟩
theorem rnd (x : RegIx) (nn : Byte) : Statement (.rnd x nn) := ⟨covers_xnn _ _ x nn, by simp [opcodeTable, oneOfEach, Instr.row]⟩
theorem drw (x : RegIx) (y : RegIx) (n : Nat) : Statement (.drw x y n) := ⟨covers_xyn _ _ x (regBits y) _, by simp [opcodeTable, oneOfEach, Instr.row]⟩
theorem skp (x : RegIx) : Statement (.skp x) := ⟨covers_xff .skp (x := x), by simp [opcodeTable, oneOfEach, Instr.row]⟩
theorem sknp (x : RegIx) : Statement (.sknp x) := ⟨covers_xff .sknp (x := x), by simp [opcodeTable, oneOfEach, Instr.row]⟩
theorem ldVxDt (x : RegIx) : Statement (.ldVxDt x) := ⟨covers_xff .ldVxDt (x := x), by simp [opcodeTable, oneOfEach, Instr.row]⟩
theorem ldVxK (x : RegIx) : Statement (.ldVxK x) := ⟨covers_xff .ldVxK (x := x), by simp [opcodeTable, oneOfEach, Instr.row]⟩
theorem ldDtVx (x : RegIx) : Statement (.ldDtVx x) := ⟨covers_xff .ldDtVx (x := x), by simp [opcodeTable, oneOfEach, Instr.row]⟩
theorem ldStVx (x : RegIx) : Statement (.ldStVx x) := ⟨covers_xff .ldStVx (x := x), by simp [opcodeTable, oneOfEach, Instr.row]⟩
theorem addI (x : RegIx) : Statement (.addI x) := ⟨covers_xff .addI (x := x), by simp [opcodeTable, oneOfEach, Instr.row]⟩
theorem ldF (x : RegIx) : Statement (.ldF x) := ⟨covers_xff .ldF (x := x), by simp [opcodeTable, oneOfEach, Instr.row]⟩
theorem ldB (x : RegIx) : Statement (.ldB x) := ⟨covers_xff .ldB (x := x), by simp [opcodeTable, oneOfEach, Instr.row]⟩
theorem storeRegs (x : RegIx) : Statement (.storeRegs x) := ⟨covers_xff .storeRegs (x := x), by simp [opcodeTable, oneOfEach, Instr.row]⟩
theorem loadRegs (x : RegIx) : Statement (.loadRegs x) := ⟨covers_xff .loadRegs (x := x), by simp [opcodeTable, oneOfEach, Instr.row]⟩

end Sys2Proof.Laws.FixedBits
end

