-- ==== Sys2Proof/Tests/Slice0.lean ====
section
/-! SUPPORT. The model's own tests. Expected results are those of spec/95_test_vectors.md (S<n>, T<n>) or worked out by
hand from the rule cited; words are written out from the encodings of spec/30_encoding.md R83, R86. Then one witness for
each statement that has hypotheses: a concrete state and operands that meet them. -/

namespace Sys2Proof.Tests

open Sys2Proof Sys2Proof.Machine

/-! ### WellFormed -/

/-- A height that does not fit four bits is refused (R82). -/
theorem test_wellFormed_refuses_height_16 : WellFormed (.drw 0 0 16) = false := by decide
theorem test_wellFormed_takes_height_15 : WellFormed (.drw 15 15 15) = true := by decide

/-! ### Decoding: a word of every row, bit by bit (R83, R86) -/

theorem test_decode_group0 :
    decodeWord 0b0000000000000000 = .ok .nop ∧ decodeWord 0b0000000011101110 = .ok .ret := by decide
theorem test_decode_nnn :
    decodeWord 0b0001101010111100 = .ok (.jp 0xABC) ∧ decodeWord 0b0010101010111100 = .ok (.call 0xABC) ∧
    decodeWord 0b1010101010111100 = .ok (.ldI 0xABC) ∧ decodeWord 0b1011101010111100 = .ok (.jpV0 0xABC) := by decide
theorem test_decode_xnn :
    decodeWord 0b0011101000010000 = .ok (.seImm 0xA 0x10) ∧ decodeWord 0b0100101000010000 = .ok (.sneImm 0xA 0x10) ∧
    decodeWord 0b0110111101010101 = .ok (.ldImm 0xF 0x55) ∧ decodeWord 0b0111000011111111 = .ok (.addImm 0 0xFF) ∧
    decodeWord 0b1100001100001111 = .ok (.rnd 3 0x0F) := by decide
theorem test_decode_xy_skips :
    decodeWord 0b0101101010110000 = .ok (.seReg 0xA 0xB) ∧ decodeWord 0b1001101010110000 = .ok (.sneReg 0xA 0xB) := by
  decide
theorem test_decode_group8 :
    decodeWord 0b1000000100100000 = .ok (.ldReg 1 2) ∧ decodeWord 0b1000000100100001 = .ok (.orReg 1 2) ∧
    decodeWord 0b1000000100100010 = .ok (.andReg 1 2) ∧ decodeWord 0b1000000100100011 = .ok (.xorReg 1 2) ∧
    decodeWord 0b1000000100100100 = .ok (.addReg 1 2) ∧ decodeWord 0b1000000100100101 = .ok (.sub 1 2) ∧
    decodeWord 0b1000101010110110 = .ok (.shr 0xA) ∧ decodeWord 0b1000000100100111 = .ok (.subn 1 2) ∧
    decodeWord 0b1000101010111110 = .ok (.shl 0xA) := by decide
theorem test_decode_draw : decodeWord 0b1101000100101111 = .ok (.drw 1 2 15) := by decide
theorem test_decode_groupE :
    decodeWord 0b1110010110011110 = .ok (.skp 5) ∧ decodeWord 0b1110010110100001 = .ok (.sknp 5) := by decide
theorem test_decode_groupF :
    decodeWord 0b1111001100000111 = .ok (.ldVxDt 3) ∧ decodeWord 0b1111001100001010 = .ok (.ldVxK 3) ∧
    decodeWord 0b1111001100010101 = .ok (.ldDtVx 3) ∧ decodeWord 0b1111001100011000 = .ok (.ldStVx 3) ∧
    decodeWord 0b1111001100011110 = .ok (.addI 3) ∧ decodeWord 0b1111001100101001 = .ok (.ldF 3) ∧
    decodeWord 0b1111001100110011 = .ok (.ldB 3) ∧ decodeWord 0b1111001101010101 = .ok (.storeRegs 3) ∧
    decodeWord 0b1111001101100101 = .ok (.loadRegs 3) := by decide

/-- R50: the byte at the lower address is the high half. -/
theorem test_decode_is_big_endian : decode [0x6A, 0x01, 0xFF] = .ok (.ldImm 0xA 1, [0xFF]) := by decide
theorem test_decode_refuses_one_byte : decode [0x00] = .error (.truncated 1) := by decide
/-- T15, T17, T27, T30, T73, T136, S13. -/
theorem test_invalid_words : [0x00E0, 0x00EF, 0xF000, 0x5AB1, 0x9AB1, 0x8128, 0xE59F, 0xFFFF].all
    (fun w : Word => decide (decodeWord w = .error (.invalidOpcode w))) = true := by decide
/-- R83: the y nibble of SHR and SHL is assembled as 0 (R92). -/
theorem test_encode_shr : encode (.shr 0xA) = 0x8A06 ∧ encode (.shl 0xA) = 0x8A0E := by decide

/-! ### One step -/

/-- The reset state with some registers set and the word `w` at PC. -/
def given (w : Nat) (regs : List (RegIx × Byte)) : State :=
  (regs.foldl (fun s r => s.setReg r.1 r.2) State.reset).withFetchWord 16 w

/-- What one step leaves, seen through `f`. -/
def after {α : Type} (s : State) (f : State → α) : Option α :=
  match step s with
  | .next t => some (f t)
  | .fault _ | .refused _ => none

/-- The fault one step raises. -/
def faultOf (s : State) : Option Fault :=
  match step s with
  | .fault f => some f
  | .next _ | .refused _ => none

/-- T1. -/
theorem test_nop : after (given 0x0000 []) id = some (given 0x0000 []).advance := by decide
/-- T2. -/
theorem test_ret : after { given 0x00EE [] with stack := (Vector.replicate 16 0).set 1 0x30A, sp := 2 }
    (fun t => (t.pc, t.sp)) = some (0x30A, 1) := by decide
/-- T3. -/
theorem test_ret_underflow : faultOf (given 0x00EE []) = some .stackUnderflow := by decide
/-- T4. -/
theorem test_jp : after (given 0x1ABC []) (·.pc) = some 0xABC := by decide
/-- T11. -/
theorem test_call : after { given 0x2ABC [] with sp := 15 } (fun t => (t.pc, t.sp, t.stack[15])) =
    some (0xABC, 16, 0x202) := by decide
/-- T12. -/
theorem test_call_overflow : faultOf { given 0x2ABC [] with sp := 16 } = some .stackOverflow := by decide
/-- T14. -/
theorem test_jpV0 : after (given 0xBFFF [(0, 0xFF)]) (·.pc) = some 0x10FE := by decide
/-- T9: the last fetchable address. -/
theorem test_fetch_at_4094 : after ((State.reset.setPc 4094).withFetchWord 16 0x0000) (·.pc) = some 4096 := by decide
/-- T6, T7, T8. -/
theorem test_fetch_faults : [0x201, 4095, 4096].all
    (fun a : Word => decide (faultOf (State.reset.setPc a) = some (.outOfBounds .fetch a))) = true := by decide
/-- S13. -/
theorem test_invalid_opcode : faultOf (given 0xFFFF []) = some (.invalidOpcode 0xFFFF) := by decide

/-- T20, T21. -/
theorem test_seImm : after (given 0x3A10 [(10, 0x10)]) (·.pc) = some 0x204 ∧
    after (given 0x3A10 [(10, 0x11)]) (·.pc) = some 0x202 := by decide
/-- T22, T23. -/
theorem test_sneImm : after (given 0x4A10 [(10, 0x11)]) (·.pc) = some 0x204 ∧
    after (given 0x4A10 [(10, 0x10)]) (·.pc) = some 0x202 := by decide
/-- T24, T25. -/
theorem test_seReg : after (given 0x5AB0 [(10, 3), (11, 3)]) (·.pc) = some 0x204 ∧
    after (given 0x5AB0 [(10, 3), (11, 4)]) (·.pc) = some 0x202 := by decide
/-- T28, T29. -/
theorem test_sneReg : after (given 0x9AB0 [(10, 3), (11, 4)]) (·.pc) = some 0x204 ∧
    after (given 0x9AB0 [(10, 3), (11, 3)]) (·.pc) = some 0x202 := by decide

/-- T40. -/
theorem test_ldImm : after (given 0x6F55 []) (·.reg 15) = some 0x55 := by decide
/-- T41. -/
theorem test_addImm : after (given 0x70FF [(0, 2)]) (fun t => (t.reg 0, t.reg 15)) = some (1, 0) := by decide
/-- T43. -/
theorem test_ldReg : after (given 0x8120 [(2, 0x77)]) (fun t => (t.reg 1, t.reg 2)) = some (0x77, 0x77) := by decide
/-- T44. -/
theorem test_orReg : after (given 0x8121 [(1, 0x50), (2, 0x05), (15, 9)]) (fun t => (t.reg 1, t.reg 15)) =
    some (0x55, 9) := by decide
/-- T45. -/
theorem test_andReg : after (given 0x8122 [(1, 0x5F), (2, 0xF5), (15, 9)]) (fun t => (t.reg 1, t.reg 15)) =
    some (0x55, 9) := by decide
/-- T46. -/
theorem test_xorReg : after (given 0x8123 [(1, 0x5F), (2, 0xF5), (15, 9)]) (fun t => (t.reg 1, t.reg 15)) =
    some (0xAA, 9) := by decide
/-- S2. -/
theorem test_addReg : after (given 0x8124 [(1, 250), (2, 10)]) (fun t => (t.reg 1, t.reg 15)) = some (4, 1) := by decide
/-- T50. -/
theorem test_addReg_vf : after (given 0x8F14 [(15, 200), (1, 100)]) (·.reg 15) = some 1 := by decide
/-- S5. -/
theorem test_sub : after (given 0x8125 [(1, 5), (2, 10)]) (fun t => (t.reg 1, t.reg 15)) = some (251, 0) := by decide
/-- T54: equal operands do not borrow. -/
theorem test_sub_equal : after (given 0x8125 [(1, 7), (2, 7)]) (fun t => (t.reg 1, t.reg 15)) = some (0, 1) := by decide
/-- T59. -/
theorem test_shr : after (given 0x81A6 [(1, 0x80), (10, 0xFF), (15, 1)]) (fun t => (t.reg 1, t.reg 15)) =
    some (0x40, 0) := by decide
/-- T61. -/
theorem test_shr_vf : after (given 0x8F06 [(15, 0xFF)]) (·.reg 15) = some 0 := by decide
/-- T64. -/
theorem test_subn : after (given 0x8127 [(1, 10), (2, 5), (15, 1)]) (fun t => (t.reg 1, t.reg 15)) =
    some (0xFB, 0) := by decide
/-- T66. -/
theorem test_subn_vf : after (given 0x8F17 [(15, 3), (1, 5)]) (·.reg 15) = some 1 := by decide
/-- T68. -/
theorem test_shl : after (given 0x810E [(1, 0x81)]) (fun t => (t.reg 1, t.reg 15)) = some (0x02, 1) := by decide
/-- T70. -/
theorem test_shl_vf : after (given 0x8F0E [(15, 0xC3)]) (·.reg 15) = some 2 := by decide

/-- T80. -/
theorem test_ldI : after (given 0xAFFF []) (·.i) = some 0x0FFF := by decide
/-- T82. -/
theorem test_addI : after ((given 0xF11E [(1, 2)]).setI 0xFFFF) (fun t => (t.i, t.reg 15)) = some (1, 0) := by decide
/-- T85. -/
theorem test_ldF : after (given 0xF129 [(1, 255)]) (·.i) = some 0x04FB := by decide
/-- S11. -/
theorem test_ldB : after ((given 0xF133 [(1, 157)]).setI 0x300) (fun t => t.mem.readBytes 0x300 4) =
    some [1, 5, 7, 0] := by decide
/-- T88, T89, T90. -/
theorem test_ldB_faults : faultOf ((given 0xF133 [(1, 9)]).setI 4094) = some (.outOfBounds .write 4096) ∧
    faultOf ((given 0xF133 [(1, 9)]).setI 5000) = some (.outOfBounds .write 5000) ∧
    faultOf ((given 0xF133 [(1, 9)]).setI 79) = some (.outOfBounds .glyphWrite 79) := by decide
/-- T92. -/
theorem test_storeRegs : after ((given 0xF355 [(0, 0x11), (1, 0x22), (2, 0x33), (3, 0x44), (4, 0x55)]).setI 0x300)
    (fun t => (t.mem.readBytes 0x300 5, t.i)) = some ([0x11, 0x22, 0x33, 0x44, 0], 0x300) := by decide
/-- T94, T95. -/
theorem test_storeRegs_faults : faultOf ((given 0xF155 [(0, 0x11)]).setI 4095) = some (.outOfBounds .write 4096) ∧
    faultOf ((given 0xF155 []).setI 0x4F) = some (.outOfBounds .glyphWrite 0x4F) := by decide
/-- T99, with V5 set beforehand: glyph F of the default font, and no register past V4. -/
theorem test_loadRegs : after ((given 0xF465 [(5, 0x99)]).setI 0x4B) (fun t => (t.v.toList.take 6, t.i)) =
    some ([0xF0, 0x80, 0xF0, 0x80, 0x80, 0x99], 0x4B) := by decide
/-- T100. -/
theorem test_loadRegs_fault : faultOf ((given 0xF265 []).setI 4094) = some (.outOfBounds .read 4096) := by decide

/-- T110. -/
theorem test_rnd : after { given 0xC30F [] with rnd := some 0xA7 } (·.reg 3) = some 7 := by decide
/-- T111. -/
theorem test_rnd_zero_mask : after { given 0xC300 [(3, 5)] with rnd := some 0xFF } (·.reg 3) = some 0 := by decide
/-- T114: a row of 0x81 at (255, 255). -/
theorem test_drw : after ((given 0xD011 [(0, 255), (1, 255)]).setI 0x300 |>.setMem [(0x200, 0xD0), (0x201, 0x11),
    (0x300, 0x81)]) (fun t => (pixel t.px 31 63, pixel t.px 31 6, pixel t.px 31 0, t.reg 15, t.dchg)) =
    some (true, true, false, 0, true) := by decide
/-- T118. -/
theorem test_drw_fault : faultOf ((given 0xD012 [(15, 1)]).setI 4095) = some (.outOfBounds .read 4096) := by decide

/-- T130, T131. -/
theorem test_skp : after ((given 0xE59E [(5, 10)]).setKeyFlag 10 true) (·.pc) = some 0x204 ∧
    after (given 0xE59E [(5, 10)]) (·.pc) = some 0x202 := by decide
/-- T133, T134. -/
theorem test_sknp : after (given 0xE5A1 [(5, 10)]) (·.pc) = some 0x204 ∧
    after ((given 0xE5A1 [(5, 10)]).setKeyFlag 10 true) (·.pc) = some 0x202 := by decide
/-- T132, T135. -/
theorem test_key_index_faults : faultOf (given 0xE59E [(5, 16)]) = some (.outOfBounds .keyIndex 16) ∧
    faultOf (given 0xE5A1 [(5, 255)]) = some (.outOfBounds .keyIndex 255) := by decide
/-- T141. -/
theorem test_ldVxDt : after ((given 0xF307 []).setDt 0x3C) (·.reg 3) = some 0x3C := by decide
/-- T137: a waiting step changes nothing at all. -/
theorem test_ldVxK_waits : after (given 0xF30A [(3, 7)]) id = some (given 0xF30A [(3, 7)]) := by decide
/-- T138. -/
theorem test_ldVxK : after ((given 0xF30A []).setKeyFlag 12 true) (fun t => (t.reg 3, t.pc)) = some (0x0C, 0x202) := by
  decide
/-- T142. -/
theorem test_ldDtVx : after (given 0xF315 [(3, 60)]) (fun t => (t.dt, t.st)) = some (60, 0) := by decide
/-- T143. -/
theorem test_ldStVx : after (given 0xF318 [(3, 2)]) (fun t => (t.dt, t.st)) = some (0, 2) := by decide

/-! ### The caller's operations -/

/-- T144, S10: the first tick of DT = 2, ST = 1, and one at zero. -/
theorem test_tickTimer : ((tickTimer ((State.reset.setDt 2).setSt 1)).dt, (tickTimer ((State.reset.setDt 2).setSt 1)).st,
    (tickTimer State.reset).dt) = (1, 0, 0) := by decide
/-- T145, T146. -/
theorem test_setKey : perform Config.defaultFont (.setKey 16 true) State.reset =
      (.fault (.outOfBounds .keyIndex 16), State.reset) ∧
    (perform Config.defaultFont (.setKey 15 true) State.reset).2.key[15] = true := by decide
/-- R243: the first two bytes of an image. -/
theorem test_load : (perform Config.defaultFont (.load [0x6A, 0x01]) State.reset).2.mem = [(0x200, 0x6A), (0x201, 0x01)] := by decide
/-- T149. -/
theorem test_ackDisplay : (perform Config.defaultFont .ackDisplay (State.reset.setDchg true)).2.dchg = false := by decide
/-- S12, R57: the first and the last glyph of the default font. -/
theorem test_glyph_table : State.reset.mem.readBytes 0 5 = [0xF0, 0x90, 0x90, 0x90, 0xF0] ∧
    State.reset.mem.readBytes 75 6 = [0xF0, 0x80, 0xF0, 0x80, 0x80, 0] := by decide
/-- R57: a reset over another font, whose first byte is that of the default and whose others are 0x81. -/
theorem test_resetWith :
    let s := State.resetWith ((Vector.replicate 80 0x81).set 0 0xF0)
    s.mem.readBytes 0 3 = [0xF0, 0x81, 0x81] ∧ s.mem.readBytes 78 3 = [0x81, 0x81, 0] ∧ s.mem.length = 79 ∧
      s.pc = 0x200 := by decide
/-- R225: row-major, 64 pixels a row. -/
theorem test_display : (display (State.reset.setPx (togglePixel State.reset.px 1 2)))[66]? = some true := by decide

/-- The host's placement: the very next step fetches the word, wherever PC was. -/
theorem test_withFetchWord : fetch (State.reset.withFetchWord 16 0x6A01) = .ok (.ldImm 0xA 1) ∧
    fetch ((State.reset.setPc 0x201).withFetchWord 16 0x6A01) = .ok (.ldImm 0xA 1) ∧
    decodeTableWord 16 0x6A01 = some (.ldImm 0xA 1) := by decide

/-! ### Witnesses: states and operands that meet the hypotheses of the statements -/

/-- The reset state with PC 0x202, the state an instruction at 0x200 runs in. -/
def running : State := State.reset.advance

/-- The reset state with I set. -/
def indexed (a : Word) : State := running.setI a

/-- It answers a next state. -/
def completes (r : Result) : Bool :=
  match r with
  | .next _ => true
  | .fault _ | .refused _ => false

/-- Its fault, if it ends in one. -/
def faultIn (r : Result) : Option Fault :=
  match r with
  | .fault f => some f
  | .next _ | .refused _ => none

theorem test_witness_DecodingAnEncodedInstructionGivesItBack :
    WellFormed (.drw 15 0 15) = true ∧ WellFormed (.loadRegs 15) = true := by decide
theorem test_witness_EncodingADecodedWordKeepsEveryUsedBit :
    decodeWord 0xFF65 = .ok (.loadRegs 15) ∧ decodeWord 0x8AB6 = .ok (.shr 0xA) ∧
    encode (.shr 0xA) = 0x8AB6 &&& 0xFF0F := by decide
/-- A word of each group, at the edges of the group. -/
theorem test_witness_InvalidWordsAreExactlyTheListedGroups :
    [0x0001, 0x00ED, 0x00EF, 0x0FFF, 0x5001, 0x5FFF, 0x8008, 0x800D, 0x800F, 0x9001, 0x9FFF, 0xE000, 0xEF9F, 0xF000,
     0xFFFF].all (fun w : Word => decide (decodeWord w = .error (.invalidOpcode w))) = true := by decide
theorem test_witness_DecoderAndOpcodeTableAgree :
    (opcodeTable.filter fun r => r.covers 0x8AB6).map Row.mnemonic = ["SHR_Vx"] ∧
    (opcodeTable.filter fun r => r.covers 0x00E0) = [] := by decide
theorem test_witness_StepRunsTheDecodedInstruction :
    let s := (State.reset.setPc 4094).withFetchWord 16 0x6A01
    s.pc.toNat % 2 = 0 ∧ s.pc.toNat ≤ 4094 ∧
    decode [s.byte s.pc.toNat, s.byte (s.pc.toNat + 1)] = .ok (.ldImm 0xA 1, []) := by decide
theorem test_witness_FetchFaultsAtAnOddOrTooHighPc :
    (State.reset.setPc 1).pc.toNat % 2 = 1 ∧ 4094 < (State.reset.setPc 4096).pc.toNat := by decide
theorem test_witness_StepFaultsOnAnInvalidWord :
    let s := given 0x00E0 []
    s.pc.toNat % 2 = 0 ∧ s.pc.toNat ≤ 4094 ∧ s.byte s.pc.toNat ++ s.byte (s.pc.toNat + 1) = 0x00E0#16 ∧
    ∀ r ∈ opcodeTable, r.covers 0x00E0 = false := by decide
/-- Each clause at the edge of its range. -/
theorem test_witness_InstructionsFaultExactlyAsListed :
    faultIn (exec .ret running) = some .stackUnderflow ∧
    faultIn (exec (.call 0) { running with sp := 16 }) = some .stackOverflow ∧
    faultIn (exec (.drw 0 0 1) (indexed 4096)) = some (.outOfBounds .read 4096) ∧
    faultIn (exec (.drw 0 0 15) (indexed 0xFFFF)) = some (.outOfBounds .read 0xFFFF) ∧
    faultIn (exec (.loadRegs 15) (indexed 4081)) = some (.outOfBounds .read 4096) ∧
    faultIn (exec (.ldB 0) (indexed 4094)) = some (.outOfBounds .write 4096) ∧
    faultIn (exec (.storeRegs 0) (indexed 4096)) = some (.outOfBounds .write 4096) ∧
    faultIn (exec (.ldB 0) (indexed 79)) = some (.outOfBounds .glyphWrite 79) ∧
    faultIn (exec (.storeRegs 15) (indexed 0)) = some (.outOfBounds .glyphWrite 0) ∧
    faultIn (exec (.skp 1) (running.setReg 1 16)) = some (.outOfBounds .keyIndex 16) ∧
    faultIn (exec (.sknp 1) (running.setReg 1 255)) = some (.outOfBounds .keyIndex 255) := by decide

theorem test_witness_NopChangesNothingButPc : fetch (given 0x0000 []) = .ok .nop := by decide
theorem test_witness_RetPopsThePc :
    ({ running with sp := 1 } : State).sp.val = (0 : Fin 16).val + 1 ∧
    ({ running with sp := 16 } : State).sp.val = (15 : Fin 16).val + 1 ∧ running.sp = 0 := by decide
theorem test_witness_CallPushesTheAdvancedPc :
    running.sp.val = (0 : Fin 16).val ∧ ({ running with sp := 15 } : State).sp.val = (15 : Fin 16).val ∧
    ({ running with sp := 16 } : State).sp = 16 ∧ fetch (given 0x2ABC []) = .ok (.call 0xABC) := by decide
theorem test_witness_RetAfterCallComesBack : completes (exec (.call 0x300) { running with sp := 15 }) = true := by decide
theorem test_witness_JumpToItselfIsAFixedPoint :
    fetch (given 0x1200 []) = .ok (.jp 0x200) ∧ (0x200#12).setWidth 16 = (given 0x1200 []).pc := by decide
theorem test_witness_RegisterSkipsAddTwoWhenTrue : (0x1#4 ≠ 0 ∧ 0xF#4 ≠ 0) := by decide
/-- Each form, with the condition true and false. -/
theorem test_witness_SkipStepsMovePcByFourOrTwo :
    fetch (given 0x3A10 [(10, 0x10)]) = .ok (.seImm 10 0x10) ∧ fetch (given 0x4A10 []) = .ok (.sneImm 10 0x10) ∧
    fetch (given 0x5AB0 []) = .ok (.seReg 10 11) ∧ fetch (given 0x9AB0 [(10, 1)]) = .ok (.sneReg 10 11) ∧
    (given 0x3A10 [(10, 0x10)]).reg 10 = 0x10 ∧ (given 0x4A10 []).reg 10 ≠ 0x10 ∧
    (given 0x5AB0 []).reg 10 = (given 0x5AB0 []).reg 11 ∧
    (given 0x9AB0 [(10, 1)]).reg 10 ≠ (given 0x9AB0 [(10, 1)]).reg 11 := by decide
/-- The lowest and the highest index. -/
theorem test_witness_LdBStoresThreeDigits : [80, 4093].all (fun a : Word =>
    decide ((indexed a).mem.wf ∧ 80 ≤ effAddr (indexed a) 0 ∧ effAddr (indexed a) 2 ≤ 4095)) = true := by decide
theorem test_witness_StoreRegsWritesTheBlock : [80, 4080].all (fun a : Word =>
    decide ((indexed a).mem.wf ∧ 80 ≤ effAddr (indexed a) 0 ∧ effAddr (indexed a) (15 : RegIx).val ≤ 4095)) = true := by
  decide
theorem test_witness_LoadRegsReadsTheBlock :
    effAddr (indexed 4080) (15 : RegIx).val ≤ 4095 ∧ effAddr (indexed 4095) (0 : RegIx).val ≤ 4095 := by decide
theorem test_witness_StoreThenLoadRestoresTheRegisters :
    (indexed 4080).mem.wf ∧ completes (exec (.storeRegs 15) (indexed 4080)) = true := by decide
theorem test_witness_StoredCodeIsFetchedNext :
    let s := ((indexed 0x202).setReg 0 0x6A).setReg 1 0x01
    s.mem.wf ∧ completes (exec (.storeRegs 1) s) = true ∧ (1 : RegIx) ≤ 1 ∧ s.i = s.pc ∧ s.pc.toNat % 2 = 0 ∧
    decodeWord (s.reg 0 ++ s.reg 1) = .ok (.ldImm 0xA 1) := by decide
theorem test_witness_RndMasksTheDraw :
    ({ running with rnd := some 0xA7 } : State).rnd = some 0xA7 ∧ fetch (given 0xC30F []) = .ok (.rnd 3 0x0F) := by decide
theorem test_witness_DrawMattersToRndOnly :
    fetch (given 0x00EE []) = .ok .ret ∧ ∀ x nn, Instr.ret ≠ .rnd x nn := ⟨by decide, fun _ _ h => nomatch h⟩

/-- A one-row sprite of eight pixels at 4095. -/
def spriteState : State := (indexed 4095).setMem [(4095, 0xFF)]

/-- With n = 0 any I; otherwise the last byte of memory. -/
theorem test_witness_DrwInvertsTheCoveredPixels :
    ((0 : Nat) = 0 ∨ (indexed 0xFFFF).i.toNat + 0 - 1 ≤ 4095) ∧ (spriteState.i.toNat + 1 - 1 ≤ 4095) ∧
    (4081 + 15 - 1 ≤ 4095) := by decide
theorem test_witness_spriteCovers : spriteCovers spriteState 0 1 1 0 7 ∧ ¬ spriteCovers spriteState 0 1 1 0 8 := by
  constructor
  · exact ⟨0, 7, by decide, by decide, by decide, by decide, by decide⟩
  · rintro ⟨row, col, hr, hc, -, h, -⟩
    have h8 : 8 = ((0 : Nat) + col) % 64 := h
    omega
/-- The same sprite on a display where its first pixel is set collides; on a blank display it does not. -/
theorem test_witness_spriteCollides :
    spriteCollides (spriteState.setPx (togglePixel spriteState.px 0 0)) 0 1 1 ∧ ¬ spriteCollides spriteState 0 1 1 := by
  constructor
  · exact ⟨0, 0, ⟨0, 0, by decide, by decide, by decide, by decide, by decide⟩, by decide⟩
  · rintro ⟨r, c, -, h⟩
    have hb : ∀ (r : Fin 32) (c : Fin 64), pixel spriteState.px r c = false := by
      intro r c
      simp [pixel, spriteState, indexed, running, State.setI, State.setMem, State.advance, State.setPc, State.reset]
    simp [hb] at h
theorem test_witness_DrawingTwiceRestoresTheDisplay :
    (1 : Nat) < 16 ∧ (0 : RegIx) ≠ 15 ∧ (1 : RegIx) ≠ 15 ∧ completes (exec (.drw 0 1 1) spriteState) = true ∧
    pixel spriteState.px 0 7 = false := by decide
/-- The lowest and the highest key number, and the values just past it and at the top. -/
theorem test_witness_KeySkipsTestTheKey :
    (running.reg 0).toNat = (0 : KeyIx).val ∧ ((running.setReg 0 15).reg 0).toNat = (15 : KeyIx).val ∧
    15 < ((running.setReg 0 16).reg 0).toNat ∧ 15 < ((running.setReg 0 255).reg 0).toNat := by decide
theorem test_witness_KeyWaitTakesAKeyThatIsDown :
    (∀ k : KeyIx, running.key[k] = false) ∧ (running.setKeyFlag 15 true).key[15] = true := by decide
theorem test_witness_WaitingStepChangesNothing :
    fetch (given 0xF30A []) = .ok (.ldVxK 3) ∧ ∀ k : KeyIx, (given 0xF30A []).key[k] = false := by decide

/-- One field of the state it answers. -/
def field {α : Type} (r : Result) (f : State → α) : Option α :=
  match r with
  | .next t => some (f t)
  | .fault _ | .refused _ => none

/-- For each clause an instruction that completes and changes the field from its value in `running`. -/
theorem test_witness_OnlyTheListedInstructionsWriteEachField :
    field (exec (.ldI 5) running) (fun t => decide (t.i ≠ running.i)) = some true ∧
    field (exec (.call 0x300) running) (fun t => decide (t.stack ≠ running.stack ∧ t.sp ≠ running.sp)) = some true ∧
    field (exec .ret { running with sp := 1 }) (fun t => decide (t.sp ≠ 1)) = some true ∧
    field (exec (.ldB 0) ((indexed 80).setReg 0 7)) (fun t => decide (t.mem ≠ running.mem)) = some true ∧
    field (exec (.drw 0 1 1) spriteState) (fun t => decide (t.px ≠ running.px ∧ t.dchg ≠ running.dchg)) = some true ∧
    field (exec (.ldDtVx 0) (running.setReg 0 7)) (fun t => decide (t.dt ≠ running.dt)) = some true ∧
    field (exec (.ldStVx 0) (running.setReg 0 7)) (fun t => decide (t.st ≠ running.st)) = some true ∧
    field (exec (.ldVxK 0) running) (fun t => decide (t.pc ≠ running.pc)) = some true := by decide
theorem test_witness_RegistersChangeOnlyWhereNamed :
    completes (exec (.loadRegs 3) (indexed 4092)) = true ∧ (4 : RegIx) ∉ destRegs (.loadRegs 3) ∧
    (3 : RegIx) ∈ destRegs (.loadRegs 3) := by decide
theorem test_witness_NoInstructionWritesTheGlyphTable :
    (indexed 80).mem.wf ∧ completes (exec (.storeRegs 0) (indexed 80)) = true ∧ 79 < 80 := by decide
/-- The invariant holds with one live stack entry, in a state whose next step completes. -/
theorem test_witness_StepKeepsTheInvariant :
    CoreInv Config.defaultFont { given 0x00EE [] with sp := 1 } ∧ completes (step { given 0x00EE [] with sp := 1 }) = true :=
  ⟨⟨by decide, by unfold GlyphIntact; decide, by unfold PcInRange; decide,
    by unfold StackOk ReturnAddress; decide⟩, by decide⟩
/-- A state reached over a font other than the default. -/
theorem test_witness_EveryReachableStateHasTheInvariant :
    let font : Font := Vector.replicate 80 0x81
    Reachable font (performAll font [.load [0x6A, 0x01], .step 0, .tickTimer] (State.resetWith font)) := ⟨_, rfl⟩
/-- Each operation that can fault, faulting. -/
theorem test_witness_FaultsChangeNothingAndRepeat :
    (perform Config.defaultFont (.step 0) (given 0x00E0 [])).1 = .fault (.invalidOpcode 0x00E0) ∧
    (perform Config.defaultFont (.setKey 16 true) State.reset).1 = .fault (.outOfBounds .keyIndex 16) := by decide
theorem test_witness_SoundTimerAndChangedFlagDoNotInterfere :
    completes (step (given 0x0000 [])) = true ∧ faultOf (given 0x00EE []) = some .stackUnderflow := by decide
/-- Two states that differ in a stale entry, one step that completes and one that faults. -/
theorem test_witness_StaleStackEntriesDoNotInterfere :
    let s := given 0x2ABC []
    let s' := { s with stack := s.stack.set 3 0x204 }
    SameButStale s s' ∧ s ≠ s' ∧ completes (step s) = true ∧ faultOf (given 0x00EE []) = some .stackUnderflow :=
  ⟨⟨rfl, fun _ h => absurd h (Nat.not_lt_zero _)⟩, by decide, by decide, by decide⟩
/-- The last byte written, the byte after it, and the byte before the first. -/
theorem test_witness_ReadAfterWrite :
    let m : Memory := [(0x200, 0x6A)]
    m.wf ∧ (0x200 ≤ 0x201 ∧ 0x201 - 0x200 < [(1 : Byte), 2].length) ∧ ¬ (0x202 - 0x200 < [(1 : Byte), 2].length) ∧
    ¬ (0x200 ≤ 0x1FF) := by decide
theorem test_witness_CanonicalMemoryIsUnique :
    Memory.wf ([(0, 0x11), (4095, 0x01)] : Memory) ∧ Memory.wf ([] : Memory) ∧ 4095 < 4096 := by decide
theorem test_witness_SetKeyWritesOneFlag : (15 < 16 ∧ 16 ≤ 65535) ∧ (15 < 65535 ∧ 65535 ≤ 65535) := by decide
/-- The longest image that is loaded and the shortest that is not. -/
theorem test_witness_LoadCopiesTheImage :
    State.reset.mem.wf ∧ (List.replicate 3584 (0xAA : Byte)).length ≤ 3584 ∧
    3584 < (List.replicate 3585 (0xAA : Byte)).length :=
  ⟨by decide, by rw [List.length_replicate], by rw [List.length_replicate]; decide⟩
theorem test_witness_FirstInstructionIsTheStartOfTheImage :
    (List.replicate 3582 (0 : Byte)).length + 2 ≤ 3584 ∧ ([] : List Byte).length + 2 ≤ 3584 ∧
    decodeWord ((0x6A#8) ++ (0x01#8)) = .ok (.ldImm 0xA 1) := ⟨by rw [List.length_replicate], by decide, by decide⟩

end Sys2Proof.Tests
end

/-! ## Proofs: control flow (40_cycle_and_control_flow.md) -/

namespace Sys2Proof

/-! ### Decoding the words of the control-flow instructions -/

theorem decodeWord_eq_ok_iff {w : Word} {i : Instr} : decodeWord w = .ok i ↔ decodeFields w = some i := by
  unfold decodeWord
  cases decodeFields w <;> simp

theorem decodeGroup0_eq_nop_iff {w : Word} : decodeGroup0 w = some .nop ↔ w = 0x0000 := by
  constructor
  · intro h
    unfold decodeGroup0 at h
    split at h
    · next hw => exact BitVec.eq_of_toNat_eq hw
    · cases h
    · cases h
  · rintro rfl; rfl

/-- Only group 0 has a word for NOP or RET; in every other group the instruction decoded is one of another kind. -/
theorem decodeGroup0_of_decodeFields {w : Word} {i : Instr} (hi : i = .nop ∨ i = .ret) (h : decodeFields w = some i) :
    decodeGroup0 w = some i := by
  unfold decodeFields at h
  split at h
  case h_1 => exact h
  case h_6 | h_10 => split at h <;> cases h; simp at hi
  case h_9 => unfold decodeGroup8 at h; split at h <;> cases h <;> simp at hi
  case h_15 => unfold decodeGroupE at h; split at h <;> cases h <;> simp at hi
  case h_16 => unfold decodeGroupF at h; split at h <;> cases h <;> simp at hi
  all_goals cases h <;> simp at hi

/-- Only the all-zero word is NOP (R104). -/
theorem decodeWord_eq_nop_iff {w : Word} : decodeWord w = .ok .nop ↔ w = 0x0000 := by
  constructor
  · intro h
    exact decodeGroup0_eq_nop_iff.1 (decodeGroup0_of_decodeFields (.inl rfl) (decodeWord_eq_ok_iff.1 h))
  · rintro rfl; rfl

section NNN
variable (nnn : Imm12)

theorem decodeWord_formatJp : decodeWord (0x1#4 ++ nnn) = .ok (.jp nnn) :=
  decodeWord_eq_ok_iff.2 (by simp [decodeFields])

theorem decodeWord_formatCall : decodeWord (0x2#4 ++ nnn) = .ok (.call nnn) :=
  decodeWord_eq_ok_iff.2 (by simp [decodeFields])

theorem decodeWord_formatJpV0 : decodeWord (0xB#4 ++ nnn) = .ok (.jpV0 nnn) :=
  decodeWord_eq_ok_iff.2 (by simp [decodeFields])
end NNN

namespace Machine

/-! ### The stack and the jump target -/

/-- A push at depth `d` below 16 succeeds (R28). -/
theorem push_of_depth {s : State} {d : Fin 16} (hd : s.sp.val = d.val) (a : Word) :
    push a s = .ok { s with stack := s.stack.set d a, sp := d.succ } := by
  have hsp : s.sp = d.castSucc := Fin.ext hd
  simp [push, hsp, Fin.succ]

/-- A push at depth 16 overflows (R28). -/
theorem push_of_full {s : State} (hs : s.sp = 16) (a : Word) : push a s = .error .stackOverflow := by
  simp [push, hs]

/-- The target of JP V0 is the exact sum: 255 + 4095 fits 16 bits (R108). -/
theorem v0Target_toNat (s : State) (nnn : Imm12) : (v0Target s nnn).toNat = (s.reg 0).toNat + nnn.toNat := by
  have hv := (s.reg 0).isLt
  have hn := nnn.isLt
  simp only [v0Target, immAddr, BitVec.toNat_add, BitVec.toNat_setWidth]
  omega

/-! ### The meanings, by dispatch -/

@[simp] theorem exec_nop (s : State) : exec .nop s = .next s := rfl

@[simp] theorem exec_jp (nnn : Imm12) (s : State) : exec (.jp nnn) s = .next (s.setPc (immAddr nnn)) := rfl

@[simp] theorem exec_jpV0 (nnn : Imm12) (s : State) : exec (.jpV0 nnn) s = .next (s.setPc (v0Target s nnn)) := rfl

theorem exec_call (nnn : Imm12) (s : State) :
    exec (.call nnn) s = orRaise (push s.pc s) fun t => .next (t.setPc (immAddr nnn)) := rfl

/-- CALL at depth `d` below 16 (R107). -/
theorem exec_call_of_depth {s : State} {d : Fin 16} (hd : s.sp.val = d.val) (nnn : Imm12) :
    exec (.call nnn) s = .next { s with stack := s.stack.set d s.pc, sp := d.succ, pc := nnn.setWidth 16 } := by
  rw [exec_call, push_of_depth hd, orRaise_ok]
  rfl

/-- CALL at depth 16 (R107). -/
theorem exec_call_of_full {s : State} (hs : s.sp = 16) (nnn : Imm12) :
    exec (.call nnn) s = .fault .stackOverflow := by
  rw [exec_call, push_of_full hs, orRaise_error]

/-! ### The obligations -/

/-- Settles O12: group 0 decodes NOP from 0000 only, no other group answers it, and its step is the advance of PC. -/
theorem nopChangesNothingButPc : Obligations.NopChangesNothingButPc :=
  ⟨fun _ => decodeWord_eq_nop_iff, exec_nop, fun _ hf => step_of_fetch hf⟩

/-- Settles O14: the group of 0x1nnn reads the whole immediate, and JP sets PC to it. -/
theorem jpSetsThePc : Obligations.JpSetsThePc :=
  fun nnn => ⟨decodeWord_formatJp nnn, exec_jp nnn⟩

/-- Settles O15, by the push at depth `d` and at depth 16; over a step the PC pushed is the advanced one. -/
theorem callPushesTheAdvancedPc : Obligations.CallPushesTheAdvancedPc := by
  intro nnn
  refine ⟨decodeWord_formatCall nnn, fun _ _ hd => exec_call_of_depth hd nnn, fun _ hs => exec_call_of_full hs nnn, ?_⟩
  intro s d hf hd
  rw [step_of_fetch hf]
  exact exec_call_of_depth (s := s.advance) hd nnn

/-- Settles O16: the sum of a byte and a 12-bit immediate does not overflow 16 bits. -/
theorem jpV0AddsV0 : Obligations.JpV0AddsV0 :=
  fun nnn => ⟨decodeWord_formatJpV0 nnn, fun s => ⟨v0Target s nnn, exec_jpV0 nnn s, v0Target_toNat s nnn⟩⟩

end Machine
end Sys2Proof

/-! ## Proofs: the register skips (41_skips.md) -/

namespace Sys2Proof

/-! ### Decoding the words of the register skips -/

/-- The words the decoder rejects are those without an instruction (R88). -/
theorem decodeWord_eq_invalidOpcode_iff {w : Word} :
    decodeWord w = .error (.invalidOpcode w) ↔ decodeFields w = none := by
  unfold decodeWord
  cases decodeFields w <;> simp

section Formats
variable (x y : RegIx) (nn : Byte) {n : BitVec 4}

theorem decodeWord_formatSeImm : decodeWord (0x3#4 ++ regBits x ++ nn) = .ok (.seImm x nn) :=
  decodeWord_eq_ok_iff.2 (by simp [decodeFields])

theorem decodeWord_formatSneImm : decodeWord (0x4#4 ++ regBits x ++ nn) = .ok (.sneImm x nn) :=
  decodeWord_eq_ok_iff.2 (by simp [decodeFields])

theorem decodeWord_formatSeReg : decodeWord (0x5#4 ++ regBits x ++ regBits y ++ 0x0#4) = .ok (.seReg x y) :=
  decodeWord_eq_ok_iff.2 (by simp [decodeFields])

theorem decodeWord_formatSneReg : decodeWord (0x9#4 ++ regBits x ++ regBits y ++ 0x0#4) = .ok (.sneReg x y) :=
  decodeWord_eq_ok_iff.2 (by simp [decodeFields])

/-- A low nibble other than 0 in group 5 is invalid (R122). -/
theorem decodeWord_group5_of_ne (hn : n ≠ 0#4) : decodeWord (0x5#4 ++ regBits x ++ regBits y ++ n) =
    .error (.invalidOpcode (0x5#4 ++ regBits x ++ regBits y ++ n)) :=
  decodeWord_eq_invalidOpcode_iff.2 (by simp [decodeFields, hn])

/-- A low nibble other than 0 in group 9 is invalid (R123). -/
theorem decodeWord_group9_of_ne (hn : n ≠ 0#4) : decodeWord (0x9#4 ++ regBits x ++ regBits y ++ n) =
    .error (.invalidOpcode (0x9#4 ++ regBits x ++ regBits y ++ n)) :=
  decodeWord_eq_invalidOpcode_iff.2 (by simp [decodeFields, hn])
end Formats

namespace Machine

/-! ### The skip on a condition -/

section Skip
variable {c : Bool} {p : Prop} [Decidable p] (hc : c = true ↔ p) (s : State)
include hc

/-- A skip on a test that decides `p` moves PC by 2 when `p` holds (R124). -/
theorem skipIf_of_iff : skipIf c s = { s with pc := if p then s.pc + 2 else s.pc } := by
  simp only [skipIf_eq, hc]

/-- After the default advance it moves PC from `pc0` to `pc0 + 4` or `pc0 + 2` (R124). -/
theorem skipIf_advance_of_iff : skipIf c s.advance = { s with pc := if p then s.pc + 4 else s.pc + 2 } := by
  have h4 : s.pc + 2 + 2 = s.pc + 4 := BitVec.add_assoc s.pc 2 2
  rw [skipIf_of_iff hc, State.advance_pc, h4]
  rfl
end Skip

/-! ### The meanings, by dispatch -/

section Exec
variable (x y : RegIx) (nn : Byte) (s : State)

theorem exec_seImm : exec (.seImm x nn) s = .next (skipIf (s.reg x == nn) s) := rfl

theorem exec_sneImm : exec (.sneImm x nn) s = .next (skipIf (s.reg x != nn) s) := rfl

theorem exec_seReg : exec (.seReg x y) s = .next (skipIf (s.reg x == s.reg y) s) := rfl

theorem exec_sneReg : exec (.sneReg x y) s = .next (skipIf (s.reg x != s.reg y) s) := rfl
end Exec

/-! ### The obligations -/

/-- Settles O19: the words by the groups of the decoder, the meanings by what a skip does to PC. -/
theorem registerSkipsAddTwoWhenTrue : Obligations.RegisterSkipsAddTwoWhenTrue := by
  intro x y nn
  refine ⟨decodeWord_formatSeImm x nn, decodeWord_formatSneImm x nn, decodeWord_formatSeReg x y,
    decodeWord_formatSneReg x y, fun n hn => ⟨decodeWord_group5_of_ne x y hn, decodeWord_group9_of_ne x y hn⟩,
    fun s => ⟨?_, ?_, ?_, ?_⟩⟩
  · rw [exec_seImm, skipIf_of_iff beq_iff_eq]
  · rw [exec_sneImm, skipIf_of_iff bne_iff_ne]
  · rw [exec_seReg, skipIf_of_iff beq_iff_eq]
  · rw [exec_sneReg, skipIf_of_iff bne_iff_ne]

/-- Settles O20: the step runs the skip after the default advance, so PC moves by 4 or 2; only the fetched word is
read. -/
theorem skipStepsMovePcByFourOrTwo : Obligations.SkipStepsMovePcByFourOrTwo := by
  intro s x y nn
  refine ⟨fun hf => ?_, fun hf => ?_, fun hf => ?_, fun hf => ?_⟩ <;> rw [step_of_fetch hf]
  · rw [exec_seImm, State.advance_reg, skipIf_advance_of_iff beq_iff_eq]
  · rw [exec_sneImm, State.advance_reg, skipIf_advance_of_iff bne_iff_ne, ite_not]
  · rw [exec_seReg, State.advance_reg, State.advance_reg, skipIf_advance_of_iff beq_iff_eq]
  · rw [exec_sneReg, State.advance_reg, State.advance_reg, skipIf_advance_of_iff bne_iff_ne, ite_not]

end Machine
end Sys2Proof

/-! ## Proofs: register loads and the ALU (42_load_and_alu.md) -/

namespace Sys2Proof

/-! ### Decoding the words of the loads and the ALU -/

section Formats
variable (x y : RegIx) (nn : Byte)

theorem decodeWord_formatLdImm : decodeWord (0x6#4 ++ regBits x ++ nn) = .ok (.ldImm x nn) :=
  decodeWord_eq_ok_iff.2 (by simp [decodeFields])

theorem decodeWord_formatAddImm : decodeWord (0x7#4 ++ regBits x ++ nn) = .ok (.addImm x nn) :=
  decodeWord_eq_ok_iff.2 (by simp [decodeFields])

/-- A word of group 8 is whatever its low nibble selects there (R86). -/
theorem decodeWord_group8 {x : RegIx} {y n : BitVec 4} {i : Instr}
    (h : decodeGroup8 (0x8#4 ++ regBits x ++ y ++ n) = some i) :
    decodeWord (0x8#4 ++ regBits x ++ y ++ n) = .ok i :=
  decodeWord_eq_ok_iff.2 (by simpa [decodeFields] using h)

theorem decodeWord_formatLdReg : decodeWord (0x8#4 ++ regBits x ++ regBits y ++ 0x0#4) = .ok (.ldReg x y) :=
  decodeWord_group8 (by simp [decodeGroup8])

theorem decodeWord_formatOrReg : decodeWord (0x8#4 ++ regBits x ++ regBits y ++ 0x1#4) = .ok (.orReg x y) :=
  decodeWord_group8 (by simp [decodeGroup8])

theorem decodeWord_formatAndReg : decodeWord (0x8#4 ++ regBits x ++ regBits y ++ 0x2#4) = .ok (.andReg x y) :=
  decodeWord_group8 (by simp [decodeGroup8])

theorem decodeWord_formatXorReg : decodeWord (0x8#4 ++ regBits x ++ regBits y ++ 0x3#4) = .ok (.xorReg x y) :=
  decodeWord_group8 (by simp [decodeGroup8])

theorem decodeWord_formatAddReg : decodeWord (0x8#4 ++ regBits x ++ regBits y ++ 0x4#4) = .ok (.addReg x y) :=
  decodeWord_group8 (by simp [decodeGroup8])

theorem decodeWord_formatSub : decodeWord (0x8#4 ++ regBits x ++ regBits y ++ 0x5#4) = .ok (.sub x y) :=
  decodeWord_group8 (by simp [decodeGroup8])

theorem decodeWord_formatSubn : decodeWord (0x8#4 ++ regBits x ++ regBits y ++ 0x7#4) = .ok (.subn x y) :=
  decodeWord_group8 (by simp [decodeGroup8])
end Formats

namespace Machine

/-! ### Sums, differences and flags of bytes -/

/-- A sum of bytes is the exact sum modulo 256 (R131, R136). -/
theorem byte_add_eq (a b : Byte) : a + b = BitVec.ofNat 8 ((a.toNat + b.toNat) % 256) := by
  apply BitVec.eq_of_toNat_eq
  simp

/-- A difference of bytes is the exact difference modulo 256 (R137, R139). -/
theorem byte_sub_eq (a b : Byte) : a - b = BitVec.ofNat 8 ((a.toNat + 256 - b.toNat) % 256) := by
  apply BitVec.eq_of_toNat_eq
  have := b.isLt
  simp only [BitVec.toNat_sub, BitVec.toNat_ofNat]
  omega

theorem carry_iff {a b : Byte} : carry a b = true ↔ a.toNat + b.toNat > 255 := decide_eq_true_iff

theorem noBorrow_iff {a b : Byte} : noBorrow a b = true ↔ a.toNat ≥ b.toNat := decide_eq_true_iff

/-- A result to Vx and then a flag that decides `p` to VF: VF holds the flag even when it is Vx, since its write comes
last (R143). -/
theorem resultThenFlag_regsBecome {flag : Bool} {p : Prop} [Decidable p] (hf : flag = true ↔ p) (x : RegIx) (b : Byte)
    (s : State) : RegsBecome s (resultThenFlag x b flag s) fun r =>
      if r = 15 then (if p then 1 else 0) else if r = x then b else s.reg r := by
  refine ⟨rfl, fun r => ?_⟩
  rw [resultThenFlag, State.reg_setReg, State.reg_setReg, flagByte]
  simp only [hf]

/-! ### The meanings, by dispatch -/

section Exec
variable (x y : RegIx) (nn : Byte) (s : State)

theorem exec_ldImm : exec (.ldImm x nn) s = .next (s.setReg x nn) := rfl

theorem exec_addImm : exec (.addImm x nn) s = .next (s.setReg x (s.reg x + nn)) := rfl

theorem exec_ldReg : exec (.ldReg x y) s = .next (s.setReg x (s.reg y)) := rfl

theorem exec_orReg : exec (.orReg x y) s = .next (s.setReg x (s.reg x ||| s.reg y)) := rfl

theorem exec_andReg : exec (.andReg x y) s = .next (s.setReg x (s.reg x &&& s.reg y)) := rfl

theorem exec_xorReg : exec (.xorReg x y) s = .next (s.setReg x (s.reg x ^^^ s.reg y)) := rfl

theorem exec_addReg : exec (.addReg x y) s =
    .next (resultThenFlag x (s.reg x + s.reg y) (carry (s.reg x) (s.reg y)) s) := rfl

theorem exec_sub : exec (.sub x y) s =
    .next (resultThenFlag x (s.reg x - s.reg y) (noBorrow (s.reg x) (s.reg y)) s) := rfl

theorem exec_subn : exec (.subn x y) s =
    .next (resultThenFlag x (s.reg y - s.reg x) (noBorrow (s.reg y) (s.reg x)) s) := rfl
end Exec

/-! ### The obligations -/

/-- Settles O21: each is one register write, whose frame is known; the sum of ADD is the one modulo 256. -/
theorem loadsAndAddImmediateWriteVxOnly : Obligations.LoadsAndAddImmediateWriteVxOnly := by
  intro x y nn
  refine ⟨decodeWord_formatLdImm x nn, decodeWord_formatAddImm x nn, decodeWord_formatLdReg x y, fun s =>
    ⟨⟨_, exec_ldImm x nn s, s.setReg_regsBecome x nn⟩, ⟨_, exec_addImm x nn s, ?_⟩,
      ⟨_, exec_ldReg x y s, s.setReg_regsBecome x (s.reg y)⟩⟩⟩
  rw [← byte_add_eq]
  exact s.setReg_regsBecome x (s.reg x + nn)

/-- Settles O22: each is one register write, to Vx, whose frame leaves VF alone unless it is Vx. -/
theorem bitwiseOperationsWriteVxOnly : Obligations.BitwiseOperationsWriteVxOnly := by
  intro x y
  exact ⟨decodeWord_formatOrReg x y, decodeWord_formatAndReg x y, decodeWord_formatXorReg x y, fun s =>
    ⟨⟨_, exec_orReg x y s, s.setReg_regsBecome x _⟩, ⟨_, exec_andReg x y s, s.setReg_regsBecome x _⟩,
      ⟨_, exec_xorReg x y s, s.setReg_regsBecome x _⟩⟩⟩

/-- Settles O23: the sum and then the carry, so the carry survives in VF. -/
theorem addSetsVfToTheCarry : Obligations.AddSetsVfToTheCarry := by
  intro x y
  refine ⟨decodeWord_formatAddReg x y, fun s => ⟨_, exec_addReg x y s, ?_⟩⟩
  rw [← byte_add_eq]
  exact resultThenFlag_regsBecome carry_iff x _ s

/-- Settles O24: the difference and then "no borrow", which equal operands give; SUBN exchanges the operands only. -/
theorem subtractionsSetVfToNoBorrow : Obligations.SubtractionsSetVfToNoBorrow := by
  intro x y
  refine ⟨decodeWord_formatSub x y, decodeWord_formatSubn x y, fun s =>
    ⟨⟨_, exec_sub x y s, ?_⟩, ⟨_, exec_subn x y s, ?_⟩⟩⟩ <;> rw [← byte_sub_eq]
  · exact resultThenFlag_regsBecome noBorrow_iff x (s.reg x - s.reg y) s
  · exact resultThenFlag_regsBecome noBorrow_iff x (s.reg y - s.reg x) s

end Machine
end Sys2Proof

/-! ## Proofs: the index register and memory (43_index_and_memory.md) -/

namespace Sys2Proof

/-! ### Decoding the word of LD I -/

theorem decodeWord_formatLdI (nnn : Imm12) : decodeWord (0xA#4 ++ nnn) = .ok (.ldI nnn) :=
  decodeWord_eq_ok_iff.2 (by simp [decodeFields])

namespace Machine

/-! ### The meaning, by dispatch -/

theorem exec_ldI (nnn : Imm12) (s : State) : exec (.ldI nnn) s = .next (s.setI (immAddr nnn)) := rfl

/-! ### The obligation -/

/-- Settles O26: the group of 0xAnnn reads the whole immediate, and LD I writes it to I and to nothing else. -/
theorem ldISetsTheIndex : Obligations.LdISetsTheIndex :=
  fun nnn => ⟨decodeWord_formatLdI nnn, exec_ldI nnn⟩

end Machine
end Sys2Proof

/-! ## Proofs: the keys and the timers (45_keys_and_timers.md) -/

namespace Sys2Proof

/-! ### Decoding the words of the timer instructions -/

section Formats
variable (x : RegIx)

/-- A word of group F is whatever its low byte selects there (R86). -/
theorem decodeWord_groupF {x : RegIx} {nn : Byte} {i : Instr}
    (h : decodeGroupF (0xF#4 ++ regBits x ++ nn) = some i) : decodeWord (0xF#4 ++ regBits x ++ nn) = .ok i :=
  decodeWord_eq_ok_iff.2 (by simpa [decodeFields] using h)

theorem decodeWord_formatLdVxDt : decodeWord (0xF#4 ++ regBits x ++ 0x07#8) = .ok (.ldVxDt x) :=
  decodeWord_groupF (by simp [decodeGroupF])

theorem decodeWord_formatLdDtVx : decodeWord (0xF#4 ++ regBits x ++ 0x15#8) = .ok (.ldDtVx x) :=
  decodeWord_groupF (by simp [decodeGroupF])

theorem decodeWord_formatLdStVx : decodeWord (0xF#4 ++ regBits x ++ 0x18#8) = .ok (.ldStVx x) :=
  decodeWord_groupF (by simp [decodeGroupF])
end Formats

namespace Machine

/-! ### The meanings, by dispatch -/

section Exec
variable (x : RegIx) (s : State)

theorem exec_ldVxDt : exec (.ldVxDt x) s = .next (s.setReg x s.dt) := rfl

theorem exec_ldDtVx : exec (.ldDtVx x) s = .next (s.setDt (s.reg x)) := rfl

theorem exec_ldStVx : exec (.ldStVx x) s = .next (s.setSt (s.reg x)) := rfl
end Exec

/-! ### The obligation -/

/-- Settles O38: group F decodes the words by their low byte; the read of DT is one register write, whose frame is
known, and the other two each update one timer. -/
theorem timerInstructionsCopyOneByte : Obligations.TimerInstructionsCopyOneByte :=
  fun x => ⟨decodeWord_formatLdVxDt x, decodeWord_formatLdDtVx x, decodeWord_formatLdStVx x, fun s =>
    ⟨⟨_, exec_ldVxDt x s, s.setReg_regsBecome x s.dt⟩, exec_ldDtVx x s, exec_ldStVx x s⟩⟩

end Machine
end Sys2Proof

/-! ## Proofs: the caller's operations (60_exceptions.md) -/

namespace Sys2Proof.Machine

/-! ### The ticks -/

theorem toNat_tickDown (b : Byte) : (tickDown b).toNat = b.toNat - 1 := by
  unfold tickDown
  split
  · next h => exact BitVec.toNat_sub_of_le (BitVec.le_def.2 h)
  · next h => omega

/-- n ticks of a timer subtract n in the naturals, where subtraction stops at 0. -/
theorem toNat_iterate_tickDown (n : Nat) (b : Byte) : (tickDown^[n] b).toNat = b.toNat - n :=
  have subtracts_one : Function.Semiconj BitVec.toNat tickDown Nat.pred := toNat_tickDown
  (subtracts_one.iterate_right n b).trans (Nat.pred_iterate b.toNat n)

/-- The two timers count down independently, and no tick writes another field (R220). -/
theorem performAll_replicate_tickTimer (font : Font) (n : Nat) (s : State) :
    performAll font (List.replicate n .tickTimer) s = { s with dt := tickDown^[n] s.dt, st := tickDown^[n] s.st } := by
  induction n generalizing s with
  | zero => rfl
  | succ n ih => exact ih (tickTimer s)

/-! ### The display read -/

theorem display_eq_flatten (s : State) : display s = s.px.flatten.toList := by
  simp only [display, List.flatMap_def, Vector.flatten, Vector.toList_mk, Array.toList_flatten, Array.toList_map,
    List.map_map]
  rfl

theorem length_display (s : State) : (display s).length = 2048 := by
  rw [display_eq_flatten]
  exact s.px.flatten.length_toList

/-- Bit 64 r + c is the pixel of row r and column c (R225): its quotient and remainder by the width are r and c. -/
theorem getElem?_display (s : State) (r : Fin 32) (c : Fin 64) :
    (display s)[r.val * 64 + c.val]? = some (pixel s.px r c) := by
  have inBounds : r.val * 64 + c.val < 32 * 64 := by omega
  have row : (r.val * 64 + c.val) / 64 = r.val := by omega
  have column : (r.val * 64 + c.val) % 64 = c.val := by omega
  rw [display_eq_flatten, Vector.getElem?_toList, Vector.getElem?_flatten, dif_pos inBounds]
  simp [row, column, pixel]

/-! ### The obligations -/

/-- Settles O52: n ticks apply the tick of one timer n times to each, and each application subtracts 1 down to 0. -/
theorem ticksCountDownToZero : Obligations.TicksCountDownToZero :=
  ⟨fun _ _ => rfl, fun font s n => ⟨_, performAll_replicate_tickTimer font n s, rfl,
    toNat_iterate_tickDown n s.dt, toNat_iterate_tickDown n s.st⟩⟩

/-- Settles O56: the read is the flattened grid of 32 rows of 64 pixels, and the operation answers the state it got. -/
theorem displayReadIsRowMajor : Obligations.DisplayReadIsRowMajor :=
  fun _ s => ⟨display s, rfl, length_display s, getElem?_display s⟩

end Sys2Proof.Machine

/-! ## Proofs: encoding and decoding (30_encoding.md) -/

namespace Sys2Proof

/-! ### Decoding the words of the other rows -/

section Formats
variable (x y : RegIx) (nn : Byte)

/-- The `y` nibble of SHR plays no part (R89). -/
theorem decodeWord_formatShr (z : BitVec 4) : decodeWord (0x8#4 ++ regBits x ++ z ++ 0x6#4) = .ok (.shr x) :=
  decodeWord_group8 (by simp [decodeGroup8])

/-- The `y` nibble of SHL plays no part (R89). -/
theorem decodeWord_formatShl (z : BitVec 4) : decodeWord (0x8#4 ++ regBits x ++ z ++ 0xE#4) = .ok (.shl x) :=
  decodeWord_group8 (by simp [decodeGroup8])

theorem decodeWord_formatRnd : decodeWord (0xC#4 ++ regBits x ++ nn) = .ok (.rnd x nn) :=
  decodeWord_eq_ok_iff.2 (by simp [decodeFields])

/-- The height of DRW is read back when it fits its field (R82). -/
theorem decodeWord_formatDrw {n : Nat} (hn : n < 16) :
    decodeWord (0xD#4 ++ regBits x ++ regBits y ++ BitVec.ofNat 4 n) = .ok (.drw x y n) :=
  decodeWord_eq_ok_iff.2 (by simp [decodeFields, fieldN, Nat.mod_eq_of_lt hn])

/-- A word of group E is whatever its low byte selects there (R86). -/
theorem decodeWord_groupE {x : RegIx} {nn : Byte} {i : Instr}
    (h : decodeGroupE (0xE#4 ++ regBits x ++ nn) = some i) : decodeWord (0xE#4 ++ regBits x ++ nn) = .ok i :=
  decodeWord_eq_ok_iff.2 (by simpa [decodeFields] using h)

theorem decodeWord_formatSkp : decodeWord (0xE#4 ++ regBits x ++ 0x9E#8) = .ok (.skp x) :=
  decodeWord_groupE (by simp [decodeGroupE])

theorem decodeWord_formatSknp : decodeWord (0xE#4 ++ regBits x ++ 0xA1#8) = .ok (.sknp x) :=
  decodeWord_groupE (by simp [decodeGroupE])

theorem decodeWord_formatLdVxK : decodeWord (0xF#4 ++ regBits x ++ 0x0A#8) = .ok (.ldVxK x) :=
  decodeWord_groupF (by simp [decodeGroupF])

theorem decodeWord_formatAddI : decodeWord (0xF#4 ++ regBits x ++ 0x1E#8) = .ok (.addI x) :=
  decodeWord_groupF (by simp [decodeGroupF])

theorem decodeWord_formatLdF : decodeWord (0xF#4 ++ regBits x ++ 0x29#8) = .ok (.ldF x) :=
  decodeWord_groupF (by simp [decodeGroupF])

theorem decodeWord_formatLdB : decodeWord (0xF#4 ++ regBits x ++ 0x33#8) = .ok (.ldB x) :=
  decodeWord_groupF (by simp [decodeGroupF])

theorem decodeWord_formatStoreRegs : decodeWord (0xF#4 ++ regBits x ++ 0x55#8) = .ok (.storeRegs x) :=
  decodeWord_groupF (by simp [decodeGroupF])

theorem decodeWord_formatLoadRegs : decodeWord (0xF#4 ++ regBits x ++ 0x65#8) = .ok (.loadRegs x) :=
  decodeWord_groupF (by simp [decodeGroupF])
end Formats

/-! ### Decoding what was encoded -/

/-- The decoder reads back every operand the encoder writes, row by row. -/
theorem decodeWord_encode {i : Instr} (hi : WellFormed i = true) : decodeWord (encode i) = .ok i := by
  cases i with
  | nop | ret => rfl
  | jp nnn => exact decodeWord_formatJp nnn
  | call nnn => exact decodeWord_formatCall nnn
  | seImm x nn => exact decodeWord_formatSeImm x nn
  | sneImm x nn => exact decodeWord_formatSneImm x nn
  | seReg x y => exact decodeWord_formatSeReg x y
  | ldImm x nn => exact decodeWord_formatLdImm x nn
  | addImm x nn => exact decodeWord_formatAddImm x nn
  | ldReg x y => exact decodeWord_formatLdReg x y
  | orReg x y => exact decodeWord_formatOrReg x y
  | andReg x y => exact decodeWord_formatAndReg x y
  | xorReg x y => exact decodeWord_formatXorReg x y
  | addReg x y => exact decodeWord_formatAddReg x y
  | sub x y => exact decodeWord_formatSub x y
  | shr x => exact decodeWord_formatShr x 0
  | subn x y => exact decodeWord_formatSubn x y
  | shl x => exact decodeWord_formatShl x 0
  | sneReg x y => exact decodeWord_formatSneReg x y
  | ldI nnn => exact decodeWord_formatLdI nnn
  | jpV0 nnn => exact decodeWord_formatJpV0 nnn
  | rnd x nn => exact decodeWord_formatRnd x nn
  | drw x y n => exact decodeWord_formatDrw x y (of_decide_eq_true hi)
  | skp x => exact decodeWord_formatSkp x
  | sknp x => exact decodeWord_formatSknp x
  | ldVxDt x => exact decodeWord_formatLdVxDt x
  | ldVxK x => exact decodeWord_formatLdVxK x
  | ldDtVx x => exact decodeWord_formatLdDtVx x
  | ldStVx x => exact decodeWord_formatLdStVx x
  | addI x => exact decodeWord_formatAddI x
  | ldF x => exact decodeWord_formatLdF x
  | ldB x => exact decodeWord_formatLdB x
  | storeRegs x => exact decodeWord_formatStoreRegs x
  | loadRegs x => exact decodeWord_formatLoadRegs x

/-- `decode` on the two bytes of a word is `decodeWord` on the word, the rest left over (R50, R80). -/
theorem decode_bytesOfWord_append (w : Word) (rest : List Byte) :
    decode (bytesOfWord w ++ rest) = (decodeWord w).map (·, rest) := by
  simp [bytesOfWord, decode]

/-! ### Encoding what was decoded -/

section Fields
variable (w : Word)

@[simp] theorem regBits_fieldX : regBits (fieldX w) = d2 w := by
  apply BitVec.eq_of_toNat_eq
  rw [regBits_toNat, fieldX_val, d2_toNat]

@[simp] theorem regBits_fieldY : regBits (fieldY w) = d3 w := by
  apply BitVec.eq_of_toNat_eq
  rw [regBits_toNat, fieldY_val, d3_toNat]

/-- A word of format NNN is its group and its immediate (R83). -/
theorem d1_append_fieldNNN : d1 w ++ fieldNNN w = w := by
  apply BitVec.eq_of_toNat_eq
  rw [toNat_formatNNN, d1_toNat, fieldNNN_toNat]; omega

/-- A word of format XNN is its group, its register and its immediate (R83). -/
theorem d1_append_d2_append_fieldNN : d1 w ++ d2 w ++ fieldNN w = w := by
  apply BitVec.eq_of_toNat_eq
  rw [toNat_formatXNN, d1_toNat, d2_toNat, fieldNN_toNat]; omega
end Fields

/-- `i` is well formed and encodes to `w`, or, for SHR and SHL, to `w` with the ignored `y` nibble cleared (R89,
R92). -/
def EncodesTo (i : Instr) (w : Word) : Prop :=
  WellFormed i = true ∧ (encode i = w ∨ ((∃ x, i = .shr x ∨ i = .shl x) ∧ encode i = w &&& 0xFF0F))

section Encode
variable {w : Word} {i : Instr} {k l : Nat} (hk : (d1 w).toNat = k)

theorem ofNat_eq_of_toNat_eq {v : Nat} {a : BitVec v} {m : Nat} (h : a.toNat = m) : BitVec.ofNat v m = a := by
  rw [← h, BitVec.ofNat_toNat, BitVec.setWidth_eq]

include hk

theorem encodesTo_of_nnn (hi : WellFormed i = true) (he : encode i = BitVec.ofNat 4 k ++ fieldNNN w) :
    EncodesTo i w := by
  rw [ofNat_eq_of_toNat_eq hk, d1_append_fieldNNN] at he
  exact ⟨hi, .inl he⟩

theorem encodesTo_of_xnn (hi : WellFormed i = true)
    (he : encode i = BitVec.ofNat 4 k ++ regBits (fieldX w) ++ fieldNN w) : EncodesTo i w := by
  rw [ofNat_eq_of_toNat_eq hk, regBits_fieldX, d1_append_d2_append_fieldNN] at he
  exact ⟨hi, .inl he⟩

/-- Format XNN with a low byte that selects the instruction. -/
theorem encodesTo_of_xff (hl : (fieldNN w).toNat = l) (hi : WellFormed i = true)
    (he : encode i = BitVec.ofNat 4 k ++ regBits (fieldX w) ++ BitVec.ofNat 8 l) : EncodesTo i w :=
  encodesTo_of_xnn hk hi (by rw [he, ofNat_eq_of_toNat_eq hl])

theorem encodesTo_of_xyn (hl : (d4 w).toNat = l) (hi : WellFormed i = true)
    (he : encode i = BitVec.ofNat 4 k ++ regBits (fieldX w) ++ regBits (fieldY w) ++ BitVec.ofNat 4 l) :
    EncodesTo i w := by
  rw [ofNat_eq_of_toNat_eq hk, ofNat_eq_of_toNat_eq hl, regBits_fieldX, regBits_fieldY, ← word_eq_nibbles] at he
  exact ⟨hi, .inl he⟩

/-- SHR and SHL are encoded with the `y` nibble 0 (R92). -/
theorem encodesTo_of_shift (hl : (d4 w).toNat = l) (hi : i = .shr (fieldX w) ∨ i = .shl (fieldX w))
    (he : encode i = BitVec.ofNat 4 k ++ regBits (fieldX w) ++ 0#4 ++ BitVec.ofNat 4 l) : EncodesTo i w := by
  have hmask : w &&& 0xFF0F#16 = (d1 w ++ d2 w ++ 0#4 ++ d4 w : Word) := by
    conv_lhs => rw [word_eq_nibbles w, show 0xFF0F#16 = (0xF#4 ++ 0xF#4 ++ 0#4 ++ 0xF#4 : Word) from rfl, nibbles_and]
    simp
  rw [ofNat_eq_of_toNat_eq hk, ofNat_eq_of_toNat_eq hl, regBits_fieldX, ← hmask] at he
  exact ⟨by rcases hi with rfl | rfl <;> rfl, .inr ⟨⟨_, hi⟩, he⟩⟩
end Encode

/-- Every word that decodes is the encoding of its instruction, up to the ignored nibble of the shifts. -/
theorem encodesTo_of_decodeFields {w : Word} {i : Instr} (h : decodeFields w = some i) : EncodesTo i w := by
  unfold decodeFields at h
  split at h <;> rename_i hg
  case h_1 =>
    unfold decodeGroup0 at h
    split at h <;> rename_i hw <;> cases h
    · exact ⟨rfl, .inl (BitVec.eq_of_toNat_eq hw.symm)⟩
    · exact ⟨rfl, .inl (BitVec.eq_of_toNat_eq hw.symm)⟩
  case h_2 | h_3 | h_11 | h_12 => cases h; exact encodesTo_of_nnn hg rfl rfl
  case h_4 | h_5 | h_7 | h_8 | h_13 => cases h; exact encodesTo_of_xnn hg rfl rfl
  case h_6 | h_10 =>
    split at h <;> rename_i hn <;> cases h
    exact encodesTo_of_xyn hg (congrArg BitVec.toNat hn) rfl rfl
  case h_9 =>
    unfold decodeGroup8 at h
    split at h <;> rename_i hn <;> cases h
    case h_7 => exact encodesTo_of_shift hg hn (.inl rfl) rfl
    case h_9 => exact encodesTo_of_shift hg hn (.inr rfl) rfl
    all_goals exact encodesTo_of_xyn hg hn rfl rfl
  case h_14 =>
    cases h
    exact encodesTo_of_xyn (l := fieldN w) hg rfl (decide_eq_true (d4 w).isLt) rfl
  case h_15 =>
    unfold decodeGroupE at h
    split at h <;> rename_i hn <;> cases h <;> exact encodesTo_of_xff hg hn rfl rfl
  case h_16 =>
    unfold decodeGroupF at h
    split at h <;> rename_i hn <;> cases h <;> exact encodesTo_of_xff hg hn rfl rfl
  case h_17 => cases h

/-- Settles O3: `decode` is `decodeWord` on the word of the two bytes, and that reads back what `encode` wrote. -/
theorem decodingAnEncodedInstructionGivesItBack : Obligations.DecodingAnEncodedInstructionGivesItBack := by
  intro i rest hi
  rw [encodeBytes, decode_bytesOfWord_append, decodeWord_encode hi]
  rfl

/-- Settles O4, group by group: the fields of the word are the operands the encoder writes. -/
theorem encodingADecodedWordKeepsEveryUsedBit : Obligations.EncodingADecodedWordKeepsEveryUsedBit :=
  fun _ _ h => encodesTo_of_decodeFields (decodeWord_eq_ok_iff.1 h)

/-! ### The words that are no instruction -/

section Invalid
variable (w : Word)

theorem decodeGroup0_eq_none_iff : decodeGroup0 w = none ↔ w.toNat ≠ 0x0000 ∧ w.toNat ≠ 0x00EE := by
  unfold decodeGroup0
  split <;> simp_all

theorem decodeGroup8_eq_none_iff :
    decodeGroup8 w = none ↔ w.toNat % 16 ∈ [0x8, 0x9, 0xA, 0xB, 0xC, 0xD, 0xF] := by
  have := Nat.mod_lt w.toNat (show 16 > 0 by decide)
  unfold decodeGroup8
  rw [d4_toNat]
  split <;> simp_all; omega

theorem decodeGroupE_eq_none_iff : decodeGroupE w = none ↔ w.toNat % 256 ∉ [0x9E, 0xA1] := by
  unfold decodeGroupE
  rw [fieldNN_toNat]
  split <;> simp_all

theorem decodeGroupF_eq_none_iff : decodeGroupF w = none ↔
    w.toNat % 256 ∉ [0x07, 0x0A, 0x15, 0x18, 0x1E, 0x29, 0x33, 0x55, 0x65] := by
  unfold decodeGroupF
  rw [fieldNN_toNat]
  split <;> simp_all

/-- In groups 5 and 9 the low nibble must be 0 (R88). -/
theorem ite_d4_eq_none_iff (i : Instr) : (if d4 w = 0 then some i else none) = none ↔ w.toNat % 16 ≠ 0 := by
  simp [← d4_toNat, ← BitVec.toNat_inj]
end Invalid

/-- Settles O5: each group rejects what its sub-code does not name, and the other groups reject nothing. -/
theorem invalidWordsAreExactlyTheListedGroups : Obligations.InvalidWordsAreExactlyTheListedGroups := by
  intro w
  have hlt := w.isLt
  rw [decodeWord_eq_invalidOpcode_iff, decodeFields, d1_toNat]
  split <;> rename_i hg
  case h_1 => rw [decodeGroup0_eq_none_iff, hg]; simp
  case h_6 | h_10 => rw [ite_d4_eq_none_iff, hg]; simp
  case h_9 => rw [decodeGroup8_eq_none_iff, hg]; simp
  case h_15 => rw [decodeGroupE_eq_none_iff, hg]; simp
  case h_16 => rw [decodeGroupF_eq_none_iff, hg]; simp
  case h_17 =>
    have hd : w.toNat / 4096 < 16 := by omega
    generalize w.toNat / 4096 = d at *
    interval_cases d <;> contradiction
  all_goals rw [hg]; simp

/-! ### The decoder and the opcode table (R86) -/

section Covers
variable {m : String} {b w : Word}

/-- A row with mask F000 fixes the group. -/
theorem d1_of_coversF000 (h : Row.covers ⟨m, 0xF000, b⟩ w = true) : (d1 w).toNat = b.toNat / 4096 := by
  have hw : (d1 w ++ 0#4 ++ 0#4 ++ 0#4 : Word) = b := (and_maskF000 w).symm.trans (eq_of_beq h)
  rw [← hw, toNat_formatXYN]
  simp only [BitVec.toNat_ofNat]; omega

/-- A row with mask F00F fixes the group and the low nibble. -/
theorem d1_d4_of_coversF00F (h : Row.covers ⟨m, 0xF00F, b⟩ w = true) :
    (d1 w).toNat = b.toNat / 4096 ∧ (d4 w).toNat = b.toNat % 16 := by
  have hw : (d1 w ++ 0#4 ++ 0#4 ++ d4 w : Word) = b := (and_maskF00F w).symm.trans (eq_of_beq h)
  rw [← hw, toNat_formatXYN]
  simp only [BitVec.toNat_ofNat]; omega

/-- A row with mask F0FF fixes the group and the low byte. -/
theorem d1_fieldNN_of_coversF0FF (h : Row.covers ⟨m, 0xF0FF, b⟩ w = true) :
    (d1 w).toNat = b.toNat / 4096 ∧ (fieldNN w).toNat = b.toNat % 256 := by
  have hw : (d1 w ++ 0#4 ++ d3 w ++ d4 w : Word) = b := (and_maskF0FF w).symm.trans (eq_of_beq h)
  rw [← hw, toNat_formatXYN, fieldNN_toNat, d3_toNat, d4_toNat]
  simp only [BitVec.toNat_ofNat]; omega

/-- A row with mask FFFF fixes the whole word. -/
theorem eq_of_coversFFFF (h : Row.covers ⟨m, 0xFFFF, b⟩ w = true) : w = b :=
  (and_maskFFFF w).symm.trans (eq_of_beq h)
end Covers

/-- A word the row of some instruction covers decodes to an instruction of that row: the bits the mask fixes are those
the decoder dispatches on. -/
theorem decodeFields_of_covers {j : Instr} {w : Word} (h : j.row.covers w = true) :
    (decodeFields w).map Instr.row = some j.row := by
  cases j
  case nop | ret => rw [eq_of_coversFFFF h]; rfl
  case jp | call | seImm | sneImm | ldImm | addImm | ldI | jpV0 | rnd | drw =>
    simp [decodeFields, d1_of_coversF000 h, Instr.row]
  case seReg | sneReg =>
    obtain ⟨h1, h4⟩ := d1_d4_of_coversF00F h
    have h4 : d4 w = 0 := BitVec.eq_of_toNat_eq h4
    simp [decodeFields, h1, h4, Instr.row]
  case ldReg | orReg | andReg | xorReg | addReg | sub | shr | subn | shl =>
    obtain ⟨h1, h4⟩ := d1_d4_of_coversF00F h
    simp [decodeFields, decodeGroup8, h1, h4, Instr.row]
  case skp | sknp =>
    obtain ⟨h1, hnn⟩ := d1_fieldNN_of_coversF0FF h
    simp [decodeFields, decodeGroupE, h1, hnn, Instr.row]
  case ldVxDt | ldVxK | ldDtVx | ldStVx | addI | ldF | ldB | storeRegs | loadRegs =>
    obtain ⟨h1, hnn⟩ := d1_fieldNN_of_coversF0FF h
    simp [decodeFields, decodeGroupF, h1, hnn, Instr.row]

open Laws.FixedBits in
/-- The family `FixedBits` over all instructions: the encoder's word is covered by the instruction's row, a row of the
table. -/
theorem row_covers_encode : ∀ i : Instr, Statement i
  | .nop => nop | .ret => ret | .jp nnn => jp nnn | .call nnn => call nnn
  | .seImm x nn => seImm x nn | .sneImm x nn => sneImm x nn | .seReg x y => seReg x y | .sneReg x y => sneReg x y
  | .ldImm x nn => ldImm x nn | .addImm x nn => addImm x nn | .ldReg x y => ldReg x y
  | .orReg x y => orReg x y | .andReg x y => andReg x y | .xorReg x y => xorReg x y | .addReg x y => addReg x y
  | .sub x y => sub x y | .shr x => shr x | .subn x y => subn x y | .shl x => shl x
  | .ldI nnn => ldI nnn | .jpV0 nnn => jpV0 nnn | .rnd x nn => rnd x nn | .drw x y n => drw x y n
  | .skp x => skp x | .sknp x => sknp x | .ldVxDt x => ldVxDt x | .ldVxK x => ldVxK x | .ldDtVx x => ldDtVx x
  | .ldStVx x => ldStVx x | .addI x => addI x | .ldF x => ldF x | .ldB x => ldB x | .storeRegs x => storeRegs x
  | .loadRegs x => loadRegs x

/-- Clearing the ignored `y` nibble of SHR and SHL does not matter to their rows (R89). -/
theorem shift_row_covers {i : Instr} (hi : ∃ x, i = .shr x ∨ i = .shl x) (w : Word) :
    i.row.covers (w &&& 0xFF0F) = i.row.covers w := by
  obtain ⟨x, rfl | rfl⟩ := hi <;> simp [Row.covers, Instr.row, BitVec.and_assoc]

/-- The row of a decoded instruction covers the word. -/
theorem row_covers_of_decodeFields {w : Word} {i : Instr} (h : decodeFields w = some i) : i.row.covers w = true := by
  have hcov := (row_covers_encode i).1
  obtain ⟨-, he | ⟨hi, he⟩⟩ := encodesTo_of_decodeFields h
  · rwa [he] at hcov
  · rwa [he, shift_row_covers hi] at hcov

/-- A row of the table that covers a word is the row of the instruction the word decodes to. -/
theorem exists_decodeFields_of_covers {r : Row} {w : Word} (hr : r ∈ opcodeTable) (h : r.covers w = true) :
    ∃ i, decodeFields w = some i ∧ i.row = r := by
  obtain ⟨j, -, rfl⟩ := List.mem_map.1 hr
  exact Option.map_eq_some_iff.1 (decodeFields_of_covers h)

/-- Settles O6: a covering row is the row of the decoded instruction, so there is one exactly when the word decodes, and
only one since the decoder is a function. -/
theorem decoderAndOpcodeTableAgree : Obligations.DecoderAndOpcodeTableAgree := by
  intro w
  simp only [decodeWord_eq_ok_iff]
  have htable : ∀ i, decodeFields w = some i → i.row ∈ opcodeTable ∧ i.row.covers w = true :=
    fun i h => ⟨(row_covers_encode i).2, row_covers_of_decodeFields h⟩
  refine ⟨⟨fun ⟨i, h⟩ => ⟨i.row, htable i h⟩, fun ⟨r, hr, h⟩ => ?_⟩, htable, fun r hr r' hr' h h' => ?_⟩
  · obtain ⟨i, hi, -⟩ := exists_decodeFields_of_covers hr h
    exact ⟨i, hi⟩
  · obtain ⟨i, hi, rfl⟩ := exists_decodeFields_of_covers hr h
    obtain ⟨j, hj, rfl⟩ := exists_decodeFields_of_covers hr' h'
    rw [Option.some.inj (hi.symm.trans hj)]

/-- Settles O7: the decoder evaluated on the words of the spec. -/
theorem exampleWordsDecodeAsWritten : Obligations.ExampleWordsDecodeAsWritten := by
  unfold Obligations.ExampleWordsDecodeAsWritten
  decide

end Sys2Proof

/-! ## Proofs: memory (20_memory.md) -/

namespace Sys2Proof.Machine

/-- An entry is in a canonical memory exactly when its address reads its byte and not as unlisted. -/
theorem Memory.mem_iff_of_wf {m : Memory} (hm : m.wf) (c : Host.Cell) :
    c ∈ m ↔ m.read c.1 = c.2 ∧ c.2 ≠ Memory.blank c.1 := by
  constructor
  · exact fun hc => ⟨Memory.read_eq_of_mem hm.1 hc, (hm.2 c hc).2⟩
  · rintro ⟨hr, hb⟩
    have hmem := Memory.mem_of_read_ne (hr.trans_ne hb)
    rwa [hr] at hmem

/-- The entries of a canonical memory are determined by what it reads as, and their order by their addresses. -/
theorem Memory.eq_of_read_eq {m m' : Memory} (hm : m.wf) (hm' : m'.wf) (h : ∀ a, m.read a = m'.read a) : m = m' := by
  have hr : List.Pairwise (InvImage (· < ·) Prod.fst) m := hm.1
  refine hr.eq_of_mem_iff hm'.1 fun c => ?_
  rw [Memory.mem_iff_of_wf hm, Memory.mem_iff_of_wf hm', h]

/-- Settles O50, by the read laws of one write and of several. -/
theorem readAfterWrite : Obligations.ReadAfterWrite := by
  refine fun m hm => ⟨Memory.read_write hm.1, fun a bs c => ?_⟩
  rw [Memory.read_writeBytes hm.1]
  by_cases ha : a ≤ c
  · by_cases hlen : c - a < bs.length
    · rw [if_pos ha, dif_pos ⟨ha, hlen⟩, List.getD_eq_getElem _ _ hlen]
    · rw [if_pos ha, dif_neg (hlen ·.2), List.getD_eq_default _ _ (Nat.not_lt.1 hlen)]
  · rw [if_neg ha, dif_neg (ha ·.1)]

/-- Settles O51: reads determine the entries, and a write keeps the canonical form. -/
theorem canonicalMemoryIsUnique : Obligations.CanonicalMemoryIsUnique :=
  ⟨fun _ _ => Memory.eq_of_read_eq, fun _ _ b hm ha => Memory.wf_write hm ha b⟩

/-! ## Proofs: reset and load (70_reset_and_hazards.md) -/

/-- A reset over the default font writes only what its addresses read as already, so memory lists nothing. -/
theorem resetWith_defaultFont : State.resetWith Config.defaultFont = State.reset := by decide

/-- Settles O1: the glyph table and the zero memory by the read laws, every other field by definition. -/
theorem resetStateHasTheListedValues : Obligations.ResetStateHasTheListedValues := by
  refine ⟨?_, resetWith_defaultFont.symm⟩
  rintro font s rfl
  refine ⟨fun r => ?_, rfl, rfl, fun k => ?_, rfl, byte_resetWith font, fun a ha _ => byte_resetWith_of_ge font ha,
    fun r c => ?_, fun k => ?_, rfl, rfl, rfl⟩
  · simp [State.reg, State.reset]
  · simp [State.reset]
  · simp [pixel, State.reset]
  · simp [State.reset]

/-- Settles O2: no field the reset writes is read, and the two it keeps it keeps again. -/
theorem resetIgnoresTheStateBeforeIt : Obligations.ResetIgnoresTheStateBeforeIt :=
  fun _ _ => ⟨rfl, rfl⟩

/-- The invariant holds after a reset over any font. -/
theorem coreInv_resetWith (font : Font) : CoreInv font (State.resetWith font) where
  memory := wf_resetWith font
  glyph := byte_resetWith font
  pc := show (0x200 : Word).toNat ≤ 4350 by decide
  stack := fun k hk => absurd hk (Nat.not_lt_zero _)

/-- Settles O44: memory by the laws of reset, PC is 0x200 and no stack entry is live. -/
theorem resetHasTheInvariant : Obligations.ResetHasTheInvariant :=
  ⟨resetWith_defaultFont ▸ coreInv_resetWith Config.defaultFont, coreInv_resetWith⟩

/-- `load` of an image that fits writes it at 0x200 (R243). -/
theorem load_of_le {bytes : List Byte} (h : bytes.length ≤ 3584) (s : State) :
    load bytes s = .next (s.setMem (s.mem.writeBytes 0x200 bytes)) :=
  if_neg (Nat.not_lt.2 h)

/-- `load` of a longer image is refused whole (R243). -/
theorem load_of_gt {bytes : List Byte} (h : 3584 < bytes.length) (s : State) :
    load bytes s = .fault (.outOfBounds .loadSize (BitVec.ofNat 16 (min bytes.length 65535))) :=
  if_pos h

/-- Settles O54: an image that fits is one write of its bytes at 0x200, a longer one a fault. -/
theorem loadCopiesTheImage : Obligations.LoadCopiesTheImage := by
  refine fun font s bytes => ⟨fun hm hlen => ⟨_, ?_, bytesBecome_writeBytes hm.1 0x200 bytes⟩, fun hlen => ?_⟩
  · simp only [perform, load_of_le hlen, replyOf, stateAfter_next]
  · simp only [perform, load_of_gt hlen, replyOf, stateAfter_fault]

/-- Settles O55: PC is 0x200 after the reset, where the load puts the first two bytes. -/
theorem firstInstructionIsTheStartOfTheImage : Obligations.FirstInstructionIsTheStartOfTheImage := by
  intro font s hi lo rest i hlen hdec
  have hload : performAll font [.reset, .load (hi :: lo :: rest)] s =
      (resetCore font s).setMem ((State.resetWith font).mem.writeBytes 0x200 (hi :: lo :: rest)) := by
    simp only [performAll, perform, load_of_le (show (hi :: lo :: rest).length ≤ 3584 from hlen), stateAfter_next]
    rfl
  obtain ⟨-, hbytes, -⟩ := bytesBecome_writeBytes (s := resetCore font s) (wf_resetWith font).1 0x200 (hi :: lo :: rest)
  have hhi := hbytes 0 (by simp)
  have hlo := hbytes 1 (by simp)
  have heven : (0x200 : Word).toNat % 2 = 0 := by decide
  have hle : (0x200 : Word).toNat ≤ 4094 := by decide
  rw [hload]
  refine fetch_of_word heven hle ?_
  exact (congrArg₂ (decodeWord <| wordOfBytes · ·) hhi hlo).trans hdec

/-! ## Proofs: the keys and the host's reads (60_exceptions.md) -/

/-- Settles O53: an index below 16 is one write to the flags, any other a fault that carries it. -/
theorem setKeyWritesOneFlag : Obligations.SetKeyWritesOneFlag := by
  refine fun font s down => ⟨fun k => ⟨s.setKeyFlag k down, ?_, rfl, fun j => ?_⟩, fun index hlo hhi => ?_⟩
  · simp [perform, setKey, replyOf]
  · simp [Vector.getElem_set, Fin.ext_iff, eq_comm]
  · have hidx : ¬ index < 16 := by omega
    simp [perform, setKey, hidx, raise, replyOf, Nat.min_eq_left hhi]

/-- Settles O57: the reads answer the field and the state they got, the acknowledgement updates the flag. -/
theorem timerAndFlagReadsChangeNothing : Obligations.TimerAndFlagReadsChangeNothing :=
  fun _ _ => ⟨rfl, rfl, rfl⟩

end Sys2Proof.Machine

/-! ## Proofs: the step (40_cycle_and_control_flow.md section 1) -/

namespace Sys2Proof

/-- Two bytes that decode to an instruction with nothing left over are a word that does (R80). -/
theorem decode_pair_eq_ok {hi lo : Byte} {i : Instr} (h : decode [hi, lo] = .ok (i, [])) :
    decodeWord (wordOfBytes hi lo) = .ok i := by
  rw [decode] at h
  cases hw : decodeWord (wordOfBytes hi lo) with
  | ok j => rw [hw] at h; cases h; rfl
  | error e => rw [hw] at h; cases h

theorem decodeGroup0_eq_ret_iff {w : Word} : decodeGroup0 w = some .ret ↔ w = 0x00EE := by
  constructor
  · intro h
    unfold decodeGroup0 at h
    split at h
    · cases h
    · next hw => exact BitVec.eq_of_toNat_eq hw
    · cases h
  · rintro rfl; rfl

/-- Only the word 00EE is RET (R105). -/
theorem decodeWord_eq_ret_iff {w : Word} : decodeWord w = .ok .ret ↔ w = 0x00EE := by
  constructor
  · intro h
    exact decodeGroup0_eq_ret_iff.1 (decodeGroup0_of_decodeFields (.inr rfl) (decodeWord_eq_ok_iff.1 h))
  · rintro rfl; rfl

/-- A word no row of the table covers is invalid (R88). -/
theorem decodeWord_of_uncovered {w : Word} (h : ∀ r ∈ opcodeTable, r.covers w = false) :
    decodeWord w = .error (.invalidOpcode w) := by
  rw [decodeWord_eq_invalidOpcode_iff, Option.eq_none_iff_forall_ne_some]
  intro i hi
  have hcov := row_covers_of_decodeFields hi
  rw [h i.row (row_covers_encode i).2] at hcov
  cases hcov

namespace Machine

/-- The fetch refuses a PC that is odd or too high (R101). -/
theorem fetch_of_not_fetchable {s : State} (h : s.pc.toNat % 2 = 1 ∨ 4094 < s.pc.toNat) :
    fetch s = .error (.outOfBounds .fetch s.pc) :=
  if_neg (by simp only [fetchable, decide_eq_true_eq]; omega)

/-- Where PC can be fetched from, an invalid word is the fault (R88, R208). -/
theorem fetch_of_invalid {s : State} {w : Word} (h1 : s.pc.toNat % 2 = 0) (h2 : s.pc.toNat ≤ 4094)
    (hw : wordOfBytes (s.byte s.pc.toNat) (s.byte (s.pc.toNat + 1)) = w)
    (h : decodeWord w = .error (.invalidOpcode w)) : fetch s = .error (.invalidOpcode w) := by
  have hf : fetchable s.pc = true := by simp [fetchable, h1, h2]
  have hb : fetchBytes s = [s.byte s.pc.toNat, s.byte (s.pc.toNat + 1)] := rfl
  simp only [fetch, hf, if_true, hb, decode, hw, h, Except.map]

/-- A step whose fetch fails raises the fault of the fetch. -/
theorem step_of_fetch_error {s : State} {f : Fault} (h : fetch s = .error f) : step s = .fault f := by
  simp [step, h]

/-- Settles O8: the fetch gives the instruction and the step runs it in the advanced state. -/
theorem stepRunsTheDecodedInstruction : Obligations.StepRunsTheDecodedInstruction :=
  fun _ _ heven hle hdec => step_of_fetch (fetch_of_word heven hle (decode_pair_eq_ok hdec))

/-- Settles O9: the fetch refuses the PC. -/
theorem fetchFaultsAtAnOddOrTooHighPc : Obligations.FetchFaultsAtAnOddOrTooHighPc :=
  fun _ h => step_of_fetch_error (fetch_of_not_fetchable h)

/-- Settles O10: a word without a row does not decode, and the fetch raises it. -/
theorem stepFaultsOnAnInvalidWord : Obligations.StepFaultsOnAnInvalidWord :=
  fun _ _ heven hle hw hrows => step_of_fetch_error (fetch_of_invalid heven hle hw (decodeWord_of_uncovered hrows))

/-- Settles O18: the target of the jump is the PC the step began with, and only PC is written. -/
theorem jumpToItselfIsAFixedPoint : Obligations.JumpToItselfIsAFixedPoint := by
  intro s nnn hf hpc
  rw [step_of_fetch hf, exec_jp, immAddr, hpc]
  rfl

/-! ## Proofs: the return (40_cycle_and_control_flow.md sections 3 and 5) -/

theorem exec_ret (s : State) : exec .ret s = orRaise (pop s) fun (a, t) => .next (t.setPc a) := rfl

/-- RET at depth `d + 1` takes the entry at `d` (R105). -/
theorem exec_ret_of_depth {s : State} {d : Fin 16} (hd : s.sp.val = d.val + 1) :
    exec .ret s = .next { s with sp := d.castSucc, pc := s.stack[d] } := by
  have hpop : pop s = .ok (s.stack[d], { s with sp := d.castSucc }) := by
    simp only [pop, hd, Nat.add_sub_cancel]
    rfl
  rw [exec_ret, hpop]
  rfl

/-- RET at depth 0 underflows (R105). -/
theorem exec_ret_of_empty {s : State} (h : s.sp = 0) : exec .ret s = .fault .stackUnderflow := by
  simp [exec_ret, pop, h]

/-- Settles O13: group 0 alone decodes RET, from 00EE only; the pop at depth `d + 1` and at depth 0. -/
theorem retPopsThePc : Obligations.RetPopsThePc :=
  ⟨fun _ => decodeWord_eq_ret_iff, fun _ _ hd => exec_ret_of_depth hd, fun _ h => exec_ret_of_empty h⟩

/-- Settles O17: the CALL wrote the advanced PC at the depth `d` it found, the RET takes the entry at `d`. -/
theorem retAfterCallComesBack : Obligations.RetAfterCallComesBack := by
  intro nnn s t t' hcall hstack hsp
  obtain ⟨hlt, rfl⟩ := execCall_next hcall
  have hd : t'.sp.val = (⟨s.sp.val, hlt⟩ : Fin 16).val + 1 := congrArg Fin.val hsp
  refine ⟨_, exec_ret_of_depth hd, ?_, Fin.ext rfl, rfl⟩
  simp [hstack]

end Machine

end Sys2Proof

/-! ## Proofs: the shifts (42_load_and_alu.md section 3) -/

namespace Sys2Proof.Machine

/-- A flag to VF and then a function of what Vx holds to Vx: with x = 15 the function is applied to the flag (R143,
decision D5). -/
theorem flagThenShift_regsBecome (x : RegIx) (flag : Byte) (shift : Byte → Byte) (s : State) :
    RegsBecome s (flagThenShift x flag shift s) fun r =>
      if r = 15 then (if x = 15 then shift flag else flag) else if r = x then shift (s.reg x) else s.reg r := by
  refine ⟨rfl, fun r => ?_⟩
  simp only [flagThenShift, State.reg_setReg]
  by_cases hx : x = 15
  · subst hx
    by_cases hr : r = 15 <;> simp [hr]
  · by_cases hr : r = 15
    · simp [hr, hx, Ne.symm hx]
    · simp [hr, hx]

section Shift
variable (a : Byte)

theorem shiftedOutRight_eq : shiftedOutRight a = BitVec.ofNat 8 (a.toNat % 2) := by
  apply BitVec.eq_of_toNat_eq
  have hbit : (a &&& 1).toNat = a.toNat % 2 := by simp [BitVec.toNat_and, Nat.and_one_is_mod]
  simp only [shiftedOutRight, hbit, BitVec.toNat_ofNat]; omega

theorem shiftRight_one_eq : a >>> 1 = BitVec.ofNat 8 (a.toNat / 2) := by
  apply BitVec.eq_of_toNat_eq
  have := a.isLt
  simp only [BitVec.toNat_ushiftRight, Nat.shiftRight_eq_div_pow, BitVec.toNat_ofNat]; omega

theorem shiftLeft_one_eq : a <<< 1 = BitVec.ofNat 8 (a.toNat * 2 % 256) := by
  apply BitVec.eq_of_toNat_eq
  simp only [BitVec.toNat_shiftLeft, Nat.shiftLeft_eq, BitVec.toNat_ofNat]; omega

/-- Bit 7 of a byte is set from 128 on. -/
theorem getLsbD_seven : a.getLsbD 7 = decide (128 ≤ a.toNat) := by
  have h : a.getLsbD (8 - 1) = a.msb := (BitVec.msb_eq_getLsbD_last a).symm
  exact h.trans (BitVec.msb_eq_decide a)

theorem shiftedOutLeft_eq : shiftedOutLeft a = BitVec.ofNat 8 (a.toNat / 128) := by
  have := a.isLt
  rw [shiftedOutLeft, getLsbD_seven, flagByte]
  by_cases h : 128 ≤ a.toNat
  · rw [show a.toNat / 128 = 1 by omega]; simp [h]
  · rw [show a.toNat / 128 = 0 by omega]; simp [h]

/-- SHR VF shifts the flag itself out (decision D5). -/
theorem shiftedOutRight_shiftRight : shiftedOutRight a >>> 1 = 0 := by
  rw [shiftRight_one_eq, shiftedOutRight_eq, BitVec.toNat_ofNat, show a.toNat % 2 % 2 ^ 8 / 2 = 0 by omega]
  rfl

/-- SHL VF doubles the flag (decision D5). -/
theorem shiftedOutLeft_shiftLeft : shiftedOutLeft a <<< 1 = if a.toNat ≥ 128 then 2 else 0 := by
  rw [shiftedOutLeft, getLsbD_seven, flagByte]
  by_cases h : 128 ≤ a.toNat <;> simp [h]
end Shift

theorem exec_shr (x : RegIx) (s : State) :
    exec (.shr x) s = .next (flagThenShift x (shiftedOutRight (s.reg x)) (fun b => b >>> 1) s) := rfl

theorem exec_shl (x : RegIx) (s : State) :
    exec (.shl x) s = .next (flagThenShift x (shiftedOutLeft (s.reg x)) (fun b => b <<< 1) s) := rfl

/-- Settles O25: the flag and then the shift of what Vx holds, as numbers; with x = 15 the shift is that of the flag. -/
theorem shiftsMoveOneBitIntoVf : Obligations.ShiftsMoveOneBitIntoVf := by
  refine fun x y => ⟨decodeWord_formatShr x y, decodeWord_formatShl x y, fun s =>
    ⟨⟨_, exec_shr x s, ?_⟩, ⟨_, exec_shl x s, ?_⟩⟩⟩
  · rw [← shiftedOutRight_eq, ← shiftRight_one_eq, ← shiftedOutRight_shiftRight]
    exact flagThenShift_regsBecome x _ _ s
  · rw [← shiftedOutLeft_eq, ← shiftLeft_one_eq, ← shiftedOutLeft_shiftLeft]
    exact flagThenShift_regsBecome x _ _ s

/-! ## Proofs: the index register and the block transfers (43_index_and_memory.md) -/

theorem exec_addI (x : RegIx) (s : State) : exec (.addI x) s = .next (s.setI (s.i + (s.reg x).setWidth 16)) := rfl

theorem exec_ldF (x : RegIx) (s : State) : exec (.ldF x) s = .next (s.setI (glyphAddr (s.reg x))) := rfl

/-- The glyph address of a byte fits 16 bits: 255 * 5 (R154). -/
theorem toNat_glyphAddr (b : Byte) : (glyphAddr b).toNat = b.toNat * 5 := by
  have := b.isLt
  simp only [glyphAddr, Config.glyphStride, BitVec.toNat_ofNat]; omega

/-- Settles O27: ADD I is the 16-bit sum, LD F the product, which does not overflow. -/
theorem indexArithmeticWritesIOnly : Obligations.IndexArithmeticWritesIOnly := by
  refine fun x => ⟨decodeWord_formatAddI x, decodeWord_formatLdF x, fun s =>
    ⟨⟨_, exec_addI x s, ?_⟩, ⟨_, exec_ldF x s, toNat_glyphAddr (s.reg x)⟩⟩⟩
  have := (s.reg x).isLt
  simp only [BitVec.toNat_add, BitVec.toNat_setWidth]; omega

theorem exec_ldB (x : RegIx) (s : State) :
    exec (.ldB x) s = orRaise (storeBytes s (effAddr s 0) (bcdDigits (s.reg x))) .next := rfl

theorem exec_storeRegs (x : RegIx) (s : State) :
    exec (.storeRegs x) s = orRaise (storeBytes s (effAddr s 0) (regBlock s x)) .next := rfl

theorem exec_loadRegs (x : RegIx) (s : State) :
    exec (.loadRegs x) s = orRaise (loadBytes s (effAddr s 0) (x.val + 1)) fun bytes => .next (s.setRegs bytes) := rfl

/-- A store inside 80..4095 writes its bytes. -/
theorem storeBytes_of_bounds {s : State} {base : Nat} {bytes : List Byte} (hlo : 80 ≤ base)
    (hhi : base + bytes.length ≤ 4096) : storeBytes s base bytes = .ok (s.setMem (s.mem.writeBytes base bytes)) := by
  have hr : reachesAbove base bytes.length = false :=
    Bool.eq_false_iff.2 fun h => by have := (reachesAbove_iff _ _).1 h; omega
  have hg : ¬ (0 < bytes.length ∧ base < Config.glyphSize) := fun h => by have := h.2; simp at this; omega
  rw [storeBytes, hr, if_neg (by decide), if_neg hg]

/-- A load inside 0..4095 reads its bytes. -/
theorem loadBytes_of_bounds {s : State} {base count : Nat} (h : count = 0 ∨ base + count ≤ 4096) :
    loadBytes s base count = .ok (s.mem.readBytes base count) := by
  rw [loadBytes_eq, if_neg (by omega)]

/-- Byte `k` of the block of V0..Vx is Vk (R158). -/
theorem getElem_regBlock (s : State) (x k : RegIx) (h : k.val < (regBlock s x).length) :
    (regBlock s x)[k.val] = s.reg k := by
  simp [regBlock, State.reg]

/-- The last byte of a block of `x + 1` bytes is at `I + x`. -/
theorem length_regBlock_effAddr (s : State) (x : RegIx) :
    effAddr s 0 + (regBlock s x).length = effAddr s x.val + 1 := by
  rw [length_regBlock]; rfl

/-- Settles O28: a store of the three digits, whose bytes and frame are known. -/
theorem ldBStoresThreeDigits : Obligations.LdBStoresThreeDigits := by
  refine fun x => ⟨decodeWord_formatLdB x, fun s hm hlo hhi => ?_⟩
  have hlt := (s.reg x).isLt
  have hend : effAddr s 0 + (bcdDigits (s.reg x)).length = effAddr s 2 + 1 := rfl
  obtain ⟨hframe, hbytes, hothers⟩ := bytesBecome_writeBytes hm.1 (effAddr s 0) (bcdDigits (s.reg x))
  refine ⟨_, by rw [exec_ldB, storeBytes_of_bounds hlo (by omega), orRaise_ok], hframe, ?_, ?_, ?_,
    fun a ha => hothers a (by omega)⟩
  · exact (congrArg BitVec.toNat (hbytes 0 (show 0 < 3 by decide))).trans (Nat.mod_eq_of_lt (by omega))
  · exact (congrArg BitVec.toNat (hbytes 1 (show 1 < 3 by decide))).trans (Nat.mod_eq_of_lt (by omega))
  · exact (congrArg BitVec.toNat (hbytes 2 (show 2 < 3 by decide))).trans (Nat.mod_eq_of_lt (by omega))

/-- Each register of a stored block stands at its address (R158). -/
theorem byte_writeBytes_regBlock {s : State} (hm : s.mem.wf) {x k : RegIx} (hk : k ≤ x) :
    (s.setMem (s.mem.writeBytes (effAddr s 0) (regBlock s x))).byte (effAddr s k.val) = s.reg k := by
  obtain ⟨-, hbytes, -⟩ := bytesBecome_writeBytes hm.1 (effAddr s 0) (regBlock s x)
  have hlen : k.val < (regBlock s x).length := by rw [length_regBlock]; exact Nat.lt_succ_of_le hk
  exact (hbytes k.val hlen).trans (getElem_regBlock s x k hlen)

/-- Settles O29: a store of the register block, whose bytes and frame are known. -/
theorem storeRegsWritesTheBlock : Obligations.StoreRegsWritesTheBlock := by
  refine fun x => ⟨decodeWord_formatStoreRegs x, fun s hm hlo hhi => ?_⟩
  have hend := length_regBlock_effAddr s x
  obtain ⟨hframe, -, hothers⟩ := bytesBecome_writeBytes hm.1 (effAddr s 0) (regBlock s x)
  exact ⟨_, by rw [exec_storeRegs, storeBytes_of_bounds hlo (by omega), orRaise_ok], hframe,
    fun k hk => byte_writeBytes_regBlock hm hk, fun a ha => hothers a (by omega)⟩

/-- A block load inside memory completes with the registers up to Vx read from memory (R160). -/
theorem exec_loadRegs_of_bounds {s : State} {x : RegIx} (h : effAddr s x.val ≤ 4095) :
    exec (.loadRegs x) s = .next (s.setRegs (s.mem.readBytes (effAddr s 0) (x.val + 1))) := by
  have hend : effAddr s 0 + (x.val + 1) = effAddr s x.val + 1 := rfl
  rw [exec_loadRegs, loadBytes_of_bounds (.inr (by omega)), orRaise_ok]

/-- The registers after a block load: those up to Vx hold the bytes at their addresses (R160). -/
theorem reg_setRegs_readBytes (s : State) (x r : RegIx) :
    (s.setRegs (s.mem.readBytes (effAddr s 0) (x.val + 1))).reg r =
      if r ≤ x then s.byte (effAddr s r.val) else s.reg r := by
  have hlen := Memory.length_readBytes s.mem (effAddr s 0) (x.val + 1)
  rw [State.reg_setRegs]
  split <;> rename_i h
  · have hr : r.val < (s.mem.readBytes (effAddr s 0) (x.val + 1)).length := (Nat.lt_succ_of_le h).trans_eq hlen.symm
    rw [List.getD_eq_getElem _ _ hr, Memory.getElem_readBytes]
    rfl
  · exact List.getD_eq_default _ _ (hlen.trans_le (Nat.lt_of_not_le h))

/-- Settles O30, by what a block load does inside memory. -/
theorem loadRegsReadsTheBlock : Obligations.LoadRegsReadsTheBlock :=
  fun x => ⟨decodeWord_formatLoadRegs x, fun s h =>
    ⟨_, exec_loadRegs_of_bounds h, rfl, reg_setRegs_readBytes s x⟩⟩

/-- Settles O31: the load reads, at the same addresses, the block the store wrote. -/
theorem storeThenLoadRestoresTheRegisters : Obligations.StoreThenLoadRestoresTheRegisters := by
  intro x s t v hm h
  obtain ⟨-, hhi, rfl⟩ := execStoreRegs_next h
  refine ⟨_, exec_loadRegs_of_bounds (show s.i.toNat + x.val ≤ 4095 by omega), fun r hr => ?_⟩
  rw [reg_setRegs_readBytes, if_pos hr]
  exact byte_writeBytes_regBlock hm hr

/-- Settles O32: the two bytes at PC are those of V0 and V1, and the range of the store bounds PC. -/
theorem storedCodeIsFetchedNext : Obligations.StoredCodeIsFetchedNext := by
  intro x s t j hm h hx hi heven hdec
  obtain ⟨-, hhi, rfl⟩ := execStoreRegs_next h
  have hx : 1 ≤ x.val := hx
  have h0 := byte_writeBytes_regBlock hm (show (0 : RegIx) ≤ x from Fin.zero_le x)
  have h1 := byte_writeBytes_regBlock hm (show (1 : RegIx) ≤ x from hx)
  rw [hi] at hhi
  refine fetch_of_word heven (show s.pc.toNat ≤ 4094 by omega) ?_
  rw [State.setMem_pc, ← hi]
  exact (congrArg₂ (decodeWord <| wordOfBytes · ·) h0 h1).trans hdec

end Sys2Proof.Machine

/-! ## Proofs: the sprite draw (44_random_and_draw.md section 2) -/

namespace Sys2Proof.Machine

theorem exec_drw (x y : RegIx) (n : Nat) (s : State) : exec (.drw x y n) s = execDrw x y n s := rfl

/-- The display and the collision a DRW computes, from the display before it and no collision yet (R172). -/
def drawn (s : State) (x y : RegIx) (n : Nat) : Display × Bool :=
  drawRows (s.reg x).toNat (s.reg y).toNat 0 (s.mem.readBytes (effAddr s 0) n) (s.px, false)

/-- The state after a DRW: display, VF and the flag (R172, decision D11). -/
def afterDraw (s : State) (x y : RegIx) (n : Nat) : State :=
  ((s.setPx (drawn s x y n).1).setReg vf (flagByte (drawn s x y n).2)).setDchg true

/-- DRW whose sprite is inside memory, or has no rows (decision D23). -/
theorem exec_drw_of_bounds {n : Nat} {s : State} (h : n = 0 ∨ s.i.toNat + n ≤ 4096) (x y : RegIx) :
    exec (.drw x y n) s = .next (afterDraw s x y n) := by
  rw [exec_drw, execDrw, show loadBytes s (effAddr s 0) n = .ok _ from loadBytes_of_bounds h]
  rfl

/-- DRW completes only so. -/
theorem exec_drw_next {x y : RegIx} {n : Nat} {s t : State} (h : exec (.drw x y n) s = .next t) :
    (n = 0 ∨ s.i.toNat + n ≤ 4096) ∧ t = afterDraw s x y n :=
  execDrw_next h

section Drawn
variable (s : State) (x y : RegIx) {n : Nat} (hn : n < 16)
include hn

/-- A DRW inverts the covered pixels, leaves the others, and collides where a covered pixel was set (R172, R174). -/
theorem drawn_spec :
    (∀ r c, spriteCovers s x y n r c → pixel (drawn s x y n).1 r c = !pixel s.px r c) ∧
    (∀ r c, ¬ spriteCovers s x y n r c → pixel (drawn s x y n).1 r c = pixel s.px r c) ∧
    ((drawn s x y n).2 = true ↔ spriteCollides s x y n) := by
  have h := drawRows_spec (s.reg x).toNat (s.reg y).toNat 0 (s.mem.readBytes (effAddr s 0) n) (s.px, false)
    (by rw [Memory.length_readBytes]; omega)
  simp only [rowsCover_iff, Bool.false_eq_true, false_or] at h
  exact h

theorem pixel_afterDraw_of_covers {r : Fin 32} {c : Fin 64} (h : spriteCovers s x y n r c) :
    pixel (afterDraw s x y n).px r c = !pixel s.px r c :=
  (drawn_spec s x y hn).1 r c h

theorem pixel_afterDraw_of_not_covers {r : Fin 32} {c : Fin 64} (h : ¬ spriteCovers s x y n r c) :
    pixel (afterDraw s x y n).px r c = pixel s.px r c :=
  (drawn_spec s x y hn).2.1 r c h

/-- VF after a DRW that collides (R174). -/
theorem reg_vf_afterDraw_of_collides (h : spriteCollides s x y n) : (afterDraw s x y n).reg 15 = 1 := by
  simp [afterDraw, (drawn_spec s x y hn).2.2.2 h, flagByte]

/-- VF after a DRW that does not (R174). -/
theorem reg_vf_afterDraw_of_not_collides (h : ¬ spriteCollides s x y n) : (afterDraw s x y n).reg 15 = 0 := by
  have hf : (drawn s x y n).2 = false := Bool.eq_false_iff.2 fun ht => h ((drawn_spec s x y hn).2.2.1 ht)
  simp [afterDraw, hf, flagByte]
end Drawn

/-- Every register but VF is as before a DRW. -/
theorem reg_afterDraw_of_ne (s : State) (x y : RegIx) (n : Nat) {r : RegIx} (hr : r ≠ 15) :
    (afterDraw s x y n).reg r = s.reg r := by
  simp [afterDraw, hr]

/-- The sprite covers the same pixels after a DRW, where the coordinates are not in VF. -/
theorem spriteCovers_afterDraw (s : State) {x y : RegIx} (hx : x ≠ 15) (hy : y ≠ 15) (n : Nat) (r : Fin 32)
    (c : Fin 64) : spriteCovers (afterDraw s x y n) x y n r c ↔ spriteCovers s x y n r c := by
  unfold spriteCovers
  rw [reg_afterDraw_of_ne s x y n hx, reg_afterDraw_of_ne s x y n hy]
  rfl

/-- Displays that agree on every pixel are equal. -/
theorem display_ext {p q : Display} (h : ∀ r c, pixel p r c = pixel q r c) : p = q :=
  Vector.ext fun r hr => Vector.ext fun c hc => h ⟨r, hr⟩ ⟨c, hc⟩

/-- Settles O35: what the rows of the sprite do to the display, and the flag they leave. -/
theorem drwInvertsTheCoveredPixels : Obligations.DrwInvertsTheCoveredPixels := by
  refine fun x y n hn => ⟨decodeWord_formatDrw x y hn, fun s hs => ?_⟩
  exact ⟨afterDraw s x y n, exec_drw_of_bounds (by omega) x y, rfl,
    fun _ _ => pixel_afterDraw_of_covers s x y hn, fun _ _ => pixel_afterDraw_of_not_covers s x y hn,
    fun _ => reg_afterDraw_of_ne s x y n, reg_vf_afterDraw_of_collides s x y hn,
    reg_vf_afterDraw_of_not_collides s x y hn⟩

/-- Settles O36: the second draw inverts the same pixels again, and finds set what the first set. -/
theorem drawingTwiceRestoresTheDisplay : Obligations.DrawingTwiceRestoresTheDisplay := by
  intro x y n s t hn hx hy h
  obtain ⟨hs, rfl⟩ := exec_drw_next h
  refine ⟨_, exec_drw_of_bounds (s := afterDraw s x y n) hs x y, display_ext fun r c => ?_, ?_⟩
  · by_cases hc : spriteCovers s x y n r c
    · rw [pixel_afterDraw_of_covers _ x y hn ((spriteCovers_afterDraw s hx hy n r c).2 hc),
        pixel_afterDraw_of_covers s x y hn hc, Bool.not_not]
    · rw [pixel_afterDraw_of_not_covers _ x y hn (hc ∘ (spriteCovers_afterDraw s hx hy n r c).1),
        pixel_afterDraw_of_not_covers s x y hn hc]
  · rintro ⟨r, c, hc⟩ hunset
    constructor
    · refine reg_vf_afterDraw_of_not_collides s x y hn ?_
      rintro ⟨r', c', hc', hset⟩
      rw [hunset r' c' hc'] at hset
      cases hset
    · refine reg_vf_afterDraw_of_collides _ x y hn ⟨r, c, (spriteCovers_afterDraw s hx hy n r c).2 hc, ?_⟩
      rw [pixel_afterDraw_of_covers s x y hn hc, hunset r c hc]
      rfl

/-! ## Proofs: the keys (45_keys_and_timers.md sections 1 and 2) -/

section Exec
variable (x : RegIx) (s : State)

theorem exec_skp : exec (.skp x) s = orRaise (keyOperand (s.reg x)) fun k => .next (skipIf s.key[k] s) := rfl

theorem exec_sknp : exec (.sknp x) s = orRaise (keyOperand (s.reg x)) fun k => .next (skipIf (!s.key[k]) s) := rfl

theorem exec_ldVxK : exec (.ldVxK x) s =
    if anyKeyDown s.key then .next (s.setReg x (BitVec.ofNat 8 (pickKey s.key).val))
    else .next (s.setPc (s.pc - 2)) := rfl
end Exec

/-- A register value that is the number of a key names that key (R182). -/
theorem keyOperand_eq {b : Byte} {k : KeyIx} (h : b.toNat = k.val) : keyOperand b = .ok k := by
  have hlt : b.toNat < 16 := h ▸ k.isLt
  rw [keyOperand_of_lt hlt]
  exact congrArg Except.ok (Fin.ext h)

/-- Settles O37: a value below 16 names the key tested, any other is the fault. -/
theorem keySkipsTestTheKey : Obligations.KeySkipsTestTheKey := by
  refine fun x => ⟨decodeWord_formatSkp x, decodeWord_formatSknp x, fun s k hk => ⟨?_, ?_⟩, fun s h => ⟨?_, ?_⟩⟩
  · rw [exec_skp, keyOperand_eq hk, orRaise_ok, skipIf_eq]
  · rw [exec_sknp, keyOperand_eq hk, orRaise_ok, skipIf_eq]
    cases s.key[k] <;> rfl
  · rw [exec_skp, keyOperand_of_ge h, orRaise_error]
  · rw [exec_sknp, keyOperand_of_ge h, orRaise_error]

/-- With no key down LD Vx, K undoes the advance of PC (R184). -/
theorem exec_ldVxK_of_no_key {s : State} (h : ∀ k : KeyIx, s.key[k] = false) (x : RegIx) :
    exec (.ldVxK x) s = .next (s.setPc (s.pc - 2)) := by
  have hany : ¬ anyKeyDown s.key = true := by simp [anyKeyDown_iff, h]
  rw [exec_ldVxK, if_neg hany]

/-- Settles O39: the wait, and the register write of the picked key, which is down. -/
theorem keyWaitTakesAKeyThatIsDown : Obligations.KeyWaitTakesAKeyThatIsDown := by
  refine fun x => ⟨decodeWord_formatLdVxK x, fun s h => exec_ldVxK_of_no_key h x, fun s h => ?_⟩
  have hany : anyKeyDown s.key = true := (anyKeyDown_iff s.key).2 h
  exact ⟨_, pickKey s.key, by rw [exec_ldVxK, if_pos hany], pickKey_down hany, s.setReg_regsBecome x _⟩

/-- A waiting step ends where it began (R184). -/
theorem step_of_waiting {s : State} {x : RegIx} (hf : fetch s = .ok (.ldVxK x))
    (h : ∀ k : KeyIx, s.key[k] = false) : step s = .next s := by
  rw [step_of_fetch hf, exec_ldVxK_of_no_key (s := s.advance) h, State.advance_pc, BitVec.add_sub_cancel]
  rfl

/-- Settles O40: the wait undoes the advance, and the draw given is put back. -/
theorem waitingStepChangesNothing : Obligations.WaitingStepChangesNothing := by
  refine fun s x hf h => ⟨step_of_waiting hf h, fun font b => ?_⟩
  have hstep : step { s with rnd := some b } = .next { s with rnd := some b } := step_of_waiting hf h
  simp only [perform, stepWith, hstep]
  rfl

/-! ## Proofs: the random draw (44_random_and_draw.md section 1) -/

theorem exec_rnd (x : RegIx) (nn : Byte) (s : State) :
    exec (.rnd x nn) s = .next ((takeDraw s).2.setReg x ((takeDraw s).1 &&& nn)) := rfl

/-- A draw leaves the registers. -/
theorem reg_takeDraw_snd (s : State) (r : RegIx) : (takeDraw s).2.reg r = s.reg r := by
  rw [takeDraw_snd]
  rfl

/-- The draw the caller gave is the one taken (R171). -/
theorem takeDraw_of_some {s : State} {g : Byte} (h : s.rnd = some g) : takeDraw s = (g, { s with rnd := none }) := by
  simp [takeDraw, h]

/-- RND over a step given the draw `b` (R170): the field that carried the draw is as before. -/
theorem stepWith_rnd {s : State} {x : RegIx} {nn : Byte} (hf : fetch s = .ok (.rnd x nn)) (b : Byte) :
    stepWith b s = .next (s.advance.setReg x (b &&& nn)) := by
  have hstep : step { s with rnd := some b } = .next ({ s.advance with rnd := none }.setReg x (b &&& nn)) :=
    step_of_fetch (s := { s with rnd := some b }) hf
  simp only [stepWith, hstep]
  rfl

/-- The bytes inside the mask are those a draw can give. -/
theorem exists_and_eq_iff (v nn : Byte) : (∃ b, b &&& nn = v) ↔ v &&& ~~~nn = 0 := by
  constructor
  · rintro ⟨b, rfl⟩
    rw [BitVec.and_assoc, BitVec.and_not_self]
    exact BitVec.and_zero
  · intro h
    refine ⟨v, BitVec.eq_of_getLsbD_eq fun k hk => ?_⟩
    have hbit := congrArg (·.getLsbD k) h
    simpa [hk] using hbit

/-- Settles O33: RND masks the draw taken, which is the caller's where there is one. -/
theorem rndMasksTheDraw : Obligations.RndMasksTheDraw := by
  refine fun x nn => ⟨decodeWord_formatRnd x nn, fun s => ?_, fun s b hf => ?_, fun v => exists_and_eq_iff v nn⟩
  · refine ⟨_, (takeDraw s).1, exec_rnd x nn s, ?_, fun r => ?_, fun g hg => by rw [takeDraw_of_some hg]⟩
    · rw [takeDraw_snd]
      rfl
    · rw [State.reg_setReg, reg_takeDraw_snd]
  · exact ⟨_, stepWith_rnd hf b, s.advance.setReg_regsBecome x (b &&& nn)⟩

end Sys2Proof.Machine

/-! ## Proofs: what each instruction writes (10_state.md sections 1 and 2) -/

namespace Sys2Proof.Machine

/-- The instructions whose own effect includes PC, beyond the default advance (10_state.md section 1). -/
def WritesPc (i : Instr) : Prop :=
  i = .ret ∨ (∃ nnn, i = .jp nnn ∨ i = .call nnn ∨ i = .jpV0 nnn) ∨
    (∃ x nn, i = .seImm x nn ∨ i = .sneImm x nn) ∨ (∃ x y, i = .seReg x y ∨ i = .sneReg x y) ∨
    ∃ x, i = .skp x ∨ i = .sknp x ∨ i = .ldVxK x

/-- All an instruction `i` can have done to `s` when it completes, by the piece of state it writes. `exec_effect` ties
it to the model: whatever `exec` answers is one of these. -/
inductive Effect (s : State) : Instr → State → Prop
  /-- Registers among the destinations of `i`, with the model's own fields of the draw; or nothing. -/
  | regs {i : Instr} (v : Vector Byte 16) (rnd : Option Byte) (draws : Nat)
      (others : ∀ r ∉ destRegs i, v[r] = s.reg r) : Effect s i { s with v := v, rnd := rnd, draws := draws }
  /-- PC: to a target of at most 4350, or by the width of an instruction, or not at all. -/
  | jump {i : Instr} (a : Word) (hi : WritesPc i) (ha : a.toNat ≤ 4350 ∨ a = s.pc - 2 ∨ a = s.pc ∨ a = s.pc + 2) :
      Effect s i (s.setPc a)
  /-- PC from the entry below the depth, which is now one less. -/
  | ret (hlt : 0 < s.sp.val) :
      Effect s .ret { s with sp := ⟨s.sp.val - 1, by omega⟩, pc := s.stack[s.sp.val - 1]'(by omega) }
  /-- PC to the entry at the depth, which is now one more. -/
  | call (nnn : Imm12) (hlt : s.sp.val < 16) : Effect s (.call nnn) { s with
      stack := s.stack.set s.sp.val s.pc hlt, sp := ⟨s.sp.val + 1, by omega⟩, pc := immAddr nnn }
  /-- I. -/
  | index {i : Instr} (a : Word) (hi : ∃ x nnn, i = .ldI nnn ∨ i = .addI x ∨ i = .ldF x) : Effect s i (s.setI a)
  /-- Bytes of memory inside 80..4095. -/
  | store {i : Instr} (base : Nat) (bytes : List Byte) (hi : ∃ x, i = .ldB x ∨ i = .storeRegs x) (hlo : 80 ≤ base)
      (hhi : base + bytes.length ≤ 4096) : Effect s i (s.setMem (s.mem.writeBytes base bytes))
  /-- The display, VF and the display-changed flag. -/
  | draw (x y : RegIx) (n : Nat) : Effect s (.drw x y n) (afterDraw s x y n)
  /-- DT. -/
  | delay (x : RegIx) (b : Byte) : Effect s (.ldDtVx x) (s.setDt b)
  /-- ST. -/
  | sound (x : RegIx) (b : Byte) : Effect s (.ldStVx x) (s.setSt b)

/-! ### The effects of the shared operations -/

section Shared
variable {i : Instr} {s : State}

/-- Writing a destination leaves the registers outside the destinations. -/
theorem getElem_set_of_notMem {x r : RegIx} (hx : x ∈ destRegs i) (b : Byte) (hr : r ∉ destRegs i) :
    (s.v.set x b)[r] = s.reg r := by
  have hne : r ≠ x := fun h => hr (h ▸ hx)
  exact (s.reg_setReg x b r).trans (if_neg hne)

/-- One register write, to a destination. -/
theorem Effect.of_setReg {x : RegIx} (hx : x ∈ destRegs i) (b : Byte) : Effect s i (s.setReg x b) :=
  .regs (s.v.set x b) s.rnd s.draws fun _ => getElem_set_of_notMem hx b

/-- A change of registers whose values outside the destinations are the old ones. -/
theorem Effect.of_regsBecome {t : State} {f : RegIx → Byte} (h : RegsBecome s t f)
    (hf : ∀ r ∉ destRegs i, f r = s.reg r) : Effect s i t := by
  obtain ⟨ht, hr⟩ := h
  rw [ht]
  exact .regs t.v s.rnd s.draws fun r hr' => (hr r).trans (hf r hr')

/-- A result to Vx and a flag to VF, in either order (R143). -/
theorem Effect.of_resultAndFlag {t : State} {x : RegIx} {flag b : Byte} (hi : destRegs i = [x, vf])
    (h : RegsBecome s t fun r => if r = 15 then flag else if r = x then b else s.reg r) : Effect s i t :=
  .of_regsBecome h fun r hr => by
    simp only [hi, List.mem_cons, List.not_mem_nil, or_false, not_or] at hr
    rw [if_neg hr.2, if_neg hr.1]

/-- A skip, taken or not (R124). -/
theorem Effect.of_skipIf (hi : WritesPc i) (c : Bool) : Effect s i (skipIf c s) := by
  cases c
  · exact .jump s.pc hi (.inr (.inr (.inl rfl)))
  · exact .jump (s.pc + 2) hi (.inr (.inr (.inr rfl)))
end Shared

/-- A target of 12 bits (R106). -/
theorem toNat_immAddr_le (nnn : Imm12) : (immAddr nnn).toNat ≤ 4350 := by
  have := nnn.isLt
  simp only [immAddr, BitVec.toNat_setWidth]; omega

/-- A target of 12 bits and a byte (R108). -/
theorem toNat_v0Target_le (s : State) (nnn : Imm12) : (v0Target s nnn).toNat ≤ 4350 := by
  have := nnn.isLt
  have := (s.reg 0).isLt
  rw [v0Target_toNat]; omega

/-- Whatever an instruction answers, its effect is the one listed for it. -/
theorem exec_effect {i : Instr} {s t : State} (h : exec i s = .next t) : Effect s i t := by
  cases i
  case nop => cases h; exact .regs s.v s.rnd s.draws fun _ _ => rfl
  case ret => obtain ⟨hlt, rfl⟩ := execRet_next h; exact .ret hlt
  case jp nnn => cases h; exact .jump _ (by simp [WritesPc]) (.inl (toNat_immAddr_le nnn))
  case jpV0 nnn => cases h; exact .jump _ (by simp [WritesPc]) (.inl (toNat_v0Target_le s nnn))
  case call nnn => obtain ⟨hlt, rfl⟩ := execCall_next h; exact .call nnn hlt
  case seImm | sneImm | seReg | sneReg => cases h; exact .of_skipIf (by simp [WritesPc]) _
  case ldImm | addImm | ldReg | orReg | andReg | xorReg | ldVxDt =>
    cases h; exact .of_setReg (List.mem_singleton.2 rfl) _
  case addReg | sub | subn => cases h; exact .of_resultAndFlag rfl (resultThenFlag_regsBecome Iff.rfl _ _ s)
  case shr | shl => cases h; exact .of_resultAndFlag rfl (flagThenShift_regsBecome _ _ _ s)
  case ldI nnn => cases h; exact .index _ ⟨0, nnn, .inl rfl⟩
  case addI x => cases h; exact .index _ ⟨x, 0, .inr (.inl rfl)⟩
  case ldF x => cases h; exact .index _ ⟨x, 0, .inr (.inr rfl)⟩
  case rnd x nn =>
    cases h
    rw [takeDraw_snd]
    exact .regs (s.v.set x _) _ _ fun _ => getElem_set_of_notMem (List.mem_singleton.2 rfl) _
  case drw x y n => obtain ⟨-, rfl⟩ := exec_drw_next h; exact .draw x y n
  case skp | sknp => obtain ⟨k, -, h⟩ := orRaise_next h; cases h; exact .of_skipIf (by simp [WritesPc]) _
  case ldVxK x =>
    obtain ⟨-, rfl⟩ | ⟨k, -, rfl⟩ := execLdVxK_next h
    · exact .jump _ (by simp [WritesPc]) (.inr (.inl rfl))
    · exact .of_setReg (List.mem_singleton.2 rfl) _
  case ldDtVx x => cases h; exact .delay x _
  case ldStVx x => cases h; exact .sound x _
  case ldB x =>
    obtain ⟨hlo, hhi, rfl⟩ := execLdB_next h
    exact .store _ _ ⟨x, .inl rfl⟩ hlo hhi
  case storeRegs x =>
    obtain ⟨hlo, hhi, rfl⟩ := execStoreRegs_next h
    exact .store _ _ ⟨x, .inr rfl⟩ hlo (by rw [length_regBlock]; exact hhi)
  case loadRegs x =>
    obtain ⟨-, rfl⟩ := execLoadRegs_next h
    exact .of_regsBecome (f := fun r => if r ≤ x then s.byte (effAddr s r.val) else s.reg r)
      ⟨rfl, reg_setRegs_readBytes s x⟩ fun r hr => if_neg fun hle => hr (by simpa [destRegs] using hle)

/-! ### The obligations on who writes what -/

/-- Settles O41: each effect writes the pieces of state it is listed for and leaves the others. -/
theorem onlyTheListedInstructionsWriteEachField : Obligations.OnlyTheListedInstructionsWriteEachField := by
  intro i s t h
  cases exec_effect h with
  | regs v rnd draws => simp
  | jump a hi => simpa [WritesPc] using fun _ => hi
  | ret hlt => simp
  | call nnn hlt => simp
  | index a hi => simpa using fun _ => hi
  | store base bytes hi => simpa using fun _ => hi
  | draw x y n => simp [afterDraw]
  | delay x b => simp
  | sound x b => simp

/-- Settles O42: a register changes under two effects only, and there it is a destination. -/
theorem registersChangeOnlyWhereNamed : Obligations.RegistersChangeOnlyWhereNamed := by
  intro i s t r h hr
  cases exec_effect h with
  | regs v rnd draws others => exact others r hr
  | draw x y n => exact reg_afterDraw_of_ne s x y n (by simpa [destRegs] using hr)
  | jump | ret | call | index | store | delay | sound => rfl

end Sys2Proof.Machine

/-! ## Proofs: the invariant (10_state.md sections 4 and 5, 20_memory.md section 4) -/

namespace Sys2Proof.Machine

/-! ### Memory under an effect -/

section Memory
variable {s t : State} {i : Instr} (e : Effect s i t)
include e

/-- An effect leaves memory or stores a range inside 80..4095. -/
theorem Effect.mem_cases : t.mem = s.mem ∨ ∃ base bytes,
    80 ≤ base ∧ base + bytes.length ≤ 4096 ∧ t.mem = s.mem.writeBytes base bytes := by
  cases e with
  | store base bytes _ hlo hhi => exact .inr ⟨base, bytes, hlo, hhi, rfl⟩
  | regs | jump | ret | call | index | draw | delay | sound => exact .inl rfl

/-- No effect leaves memory out of canonical form (entry 13). -/
theorem Effect.wf_mem (hm : s.mem.wf) : t.mem.wf := by
  obtain h | ⟨base, bytes, -, hhi, h⟩ := e.mem_cases <;> rw [h]
  · exact hm
  · exact Memory.wf_writeBytes hm (.inr hhi)

/-- No effect reaches below 80 (decision D7). -/
theorem Effect.byte_of_lt (hm : s.mem.wf) {a : Nat} (ha : a < 80) : t.byte a = s.byte a := by
  unfold State.byte
  obtain h | ⟨base, bytes, hlo, -, h⟩ := e.mem_cases <;> rw [h]
  exact (Memory.read_writeBytes hm.1 base bytes a).trans (if_neg (by omega))
end Memory

/-- Settles O43: the one effect on memory is a store above 79. -/
theorem noInstructionWritesTheGlyphTable : Obligations.NoInstructionWritesTheGlyphTable :=
  fun _ _ _ _ hm h ha => (exec_effect h).byte_of_lt hm ha

/-! ### PC and the stack under an effect -/

/-- A state whose stack and depth are those of one with return addresses in its live entries has them too. -/
theorem StackOk.of_eq {s t : State} (h : StackOk s) (hstack : t.stack = s.stack) (hsp : t.sp = s.sp) : StackOk t := by
  unfold StackOk
  rw [hstack, hsp]
  exact h

/-- Adding 2 to an address far from 65535 does not wrap. -/
theorem toNat_add_two {a : Word} (h : a.toNat ≤ 4096) : (a + 2).toNat = a.toNat + 2 := by
  have h2 : (2 : Word).toNat = 2 := rfl
  rw [BitVec.toNat_add, h2]; omega

section Advanced
variable {s t : State} {i : Instr} (e : Effect s.advance i t) (hstack : StackOk s)
include e hstack

/-- The effect of an instruction fetched at an even address of at most 4094 pushes the address after it, which is even
and at most 4096; popping uncovers no entry (R105, R107). -/
theorem Effect.stackOk (heven : s.pc.toNat % 2 = 0) (hle : s.pc.toNat ≤ 4094) : StackOk t := by
  cases e with
  | ret hlt =>
    intro k hk
    have hsp : k.val < s.sp.val - 1 := hk
    exact hstack k (by omega)
  | call nnn hlt =>
    intro k hk
    have hsp : k.val < s.sp.val + 1 := hk
    have hlt : s.sp.val < 16 := hlt
    have hpush : ReturnAddress (s.pc + 2) := by
      unfold ReturnAddress
      rw [toNat_add_two (by omega)]; omega
    show ReturnAddress ((s.stack.set s.sp.val (s.pc + 2) hlt)[k.val])
    rw [Vector.getElem_set]
    split
    · exact hpush
    · exact hstack k (by omega)
  | regs | jump | index | store | draw | delay | sound => exact hstack.of_eq rfl rfl

/-- Every PC an instruction leaves is a target of at most 4350, a return address of at most 4096, or within 4 of where
it was fetched (R26). -/
theorem Effect.pcInRange (hle : s.pc.toNat ≤ 4094) : PcInRange t := by
  have hadv : s.advance.pc.toNat = s.pc.toNat + 2 := toNat_add_two (by omega)
  have hstay : PcInRange s.advance := by unfold PcInRange; omega
  cases e with
  | jump a _ ha =>
    show a.toNat ≤ 4350
    obtain ha | rfl | rfl | rfl := ha
    · exact ha
    · rw [State.advance_pc, BitVec.add_sub_cancel]; omega
    · exact hstay
    · rw [toNat_add_two (by omega)]; omega
  | ret hlt =>
    have hlive : s.sp.val - 1 < s.sp.val := by have : 0 < s.sp.val := hlt; omega
    exact ((hstack ⟨s.sp.val - 1, by omega⟩ hlive).2).trans (by decide)
  | call nnn => exact toNat_immAddr_le nnn
  | regs | index | store | draw | delay | sound => exact hstay
end Advanced

/-! ### The invariant -/

/-- The invariant depends on memory, PC, the stack and its depth alone. -/
theorem CoreInv.of_eq {font : Font} {s t : State} (h : CoreInv font s) (hmem : t.mem = s.mem) (hpc : t.pc = s.pc)
    (hstack : t.stack = s.stack) (hsp : t.sp = s.sp) : CoreInv font t where
  memory := hmem ▸ h.memory
  glyph := fun k => by rw [State.byte, hmem]; exact h.glyph k
  pc := by unfold PcInRange; rw [hpc]; exact h.pc
  stack := h.stack.of_eq hstack hsp

/-- A step that completes fetched at an even address of at most 4094, and then each part of the invariant is kept by the
effect of the instruction. -/
theorem CoreInv.step {font : Font} {s t : State} (hs : CoreInv font s) (h : step s = .next t) : CoreInv font t := by
  obtain ⟨i, hf, hi⟩ := step_next h
  obtain ⟨heven, hle, -⟩ := fetch_ok hf
  have e := exec_effect hi
  exact ⟨e.wf_mem hs.memory, fun k => (e.byte_of_lt hs.memory k.isLt).trans (hs.glyph k),
    e.pcInRange hs.stack hle, e.stackOk hs.stack heven hle⟩

/-- Settles O45: the effect of the fetched instruction keeps memory, the glyph table, PC's range and the stack. -/
theorem stepKeepsTheInvariant : Obligations.StepKeepsTheInvariant :=
  fun _ _ _ hs h => hs.step h

/-- A step given a draw keeps the invariant: the field that carries the draw is no part of it. -/
theorem CoreInv.stepWith {font : Font} {s : State} (hs : CoreInv font s) (b : Byte) :
    CoreInv font (stateAfter s (stepWith b s)) := by
  have hgiven : CoreInv font { s with rnd := some b } := hs.of_eq rfl rfl rfl rfl
  unfold Machine.stepWith
  cases h : Machine.step { s with rnd := some b } with
  | next t => exact (hgiven.step h).of_eq rfl rfl rfl rfl
  | fault | refused => exact hs

/-- The image `load` accepts ends at 4095 and starts above the glyph table (R243). -/
theorem CoreInv.load {font : Font} {s : State} (hs : CoreInv font s) (bytes : List Byte) :
    CoreInv font (stateAfter s (load bytes s)) := by
  by_cases hlen : bytes.length ≤ 3584
  · rw [load_of_le hlen, stateAfter_next]
    have e : Effect s (.ldB 0) (s.setMem (s.mem.writeBytes 0x200 bytes)) :=
      .store 0x200 bytes ⟨0, .inl rfl⟩ (by decide) (by omega)
    exact ⟨e.wf_mem hs.memory, fun k => (e.byte_of_lt hs.memory k.isLt).trans (hs.glyph k), hs.pc, hs.stack⟩
  · rw [load_of_gt (Nat.not_le.1 hlen), stateAfter_fault]
    exact hs

/-- Every operation of the caller keeps the invariant. -/
theorem CoreInv.perform {font : Font} {s : State} (hs : CoreInv font s) (op : Op) :
    CoreInv font (perform font op s).2 := by
  cases op with
  | reset => exact (coreInv_resetWith font).of_eq rfl rfl rfl rfl
  | load bytes => exact hs.load bytes
  | step b => exact hs.stepWith b
  | setKey index down =>
    by_cases h : index < 16
    · simp only [Machine.perform, setKey, h, dif_pos, stateAfter_next]
      exact hs.of_eq rfl rfl rfl rfl
    · simp only [Machine.perform, setKey, h, dif_neg, not_false_eq_true, raise, stateAfter_fault]
      exact hs
  | tickTimer | ackDisplay => exact hs.of_eq rfl rfl rfl rfl
  | display | soundTimer | displayChanged => exact hs

theorem CoreInv.performAll {font : Font} (ops : List Op) {s : State} (hs : CoreInv font s) :
    CoreInv font (performAll font ops s) := by
  induction ops generalizing s with
  | nil => exact hs
  | cons op ops ih => exact ih (hs.perform op)

/-- Settles O46: each operation keeps the invariant, and a reachable state is some operations away from the reset. -/
theorem everyReachableStateHasTheInvariant : Obligations.EveryReachableStateHasTheInvariant := by
  refine ⟨fun _ op _ hs => hs.perform op, ?_⟩
  rintro font s ⟨ops, rfl⟩
  exact (coreInv_resetWith font).performAll ops

end Sys2Proof.Machine

/-! ## Proofs: what no instruction reads (10_state.md sections 5 and 6) -/

namespace Sys2Proof.Machine

/-- Two results of one kind: next states that `R` relates, or the same fault or refusal. -/
inductive Alike (R : State → State → Prop) : Result → Result → Prop
  | next {t t' : State} (h : R t t') : Alike R (.next t) (.next t')
  | fault (f : Fault) : Alike R (.fault f) (.fault f)
  | refused (m : Refusal) : Alike R (.refused m) (.refused m)

section Alike
variable {R : State → State → Prop}

theorem Alike.next_of_eq {r r' : Result} {t : State} (h : Alike R r r') (hr : r = .next t) :
    ∃ t', r' = .next t' ∧ R t t' := by
  cases h with
  | next h => cases hr; exact ⟨_, rfl, h⟩
  | fault | refused => cases hr

theorem Alike.fault_of_eq {r r' : Result} {f : Fault} (h : Alike R r r') (hr : r = .fault f) : r' = .fault f := by
  cases h with
  | fault => exact hr
  | next | refused => cases hr

/-- A checked operation that does not see the difference, followed by alike results, is alike. -/
theorem Alike.orRaise {α : Type} {k k' : α → Result} (r : Except Fault α) (h : ∀ a, Alike R (k a) (k' a)) :
    Alike R (orRaise r k) (orRaise r k') := by
  cases r with
  | ok a => exact h a
  | error f => exact .fault f
end Alike

/-- A relation between states that differ in the stack, ST, the display-changed flag and the model's own fields of the
draw alone, and that the writes of each field keep. `exec_alike` says that no instruction but RND, which takes a draw, tells
two such states apart. -/
structure Unread (R : State → State → Prop) : Prop where
  /-- The other pieces of state are equal. -/
  agree {s s' : State} : R s s' → ∃ stack st dchg rnd draws,
    s' = { s with stack := stack, st := st, dchg := dchg, rnd := rnd, draws := draws }
  /-- Writing the pieces that are equal. -/
  update {s s' : State} : R s s' → ∀ v i pc mem px dt,
    R { s with v := v, i := i, pc := pc, mem := mem, px := px, dt := dt }
      { s' with v := v, i := i, pc := pc, mem := mem, px := px, dt := dt }
  setSt {s s' : State} (b : Byte) : R s s' → R (s.setSt b) (s'.setSt b)
  setDchg {s s' : State} (c : Bool) : R s s' → R (s.setDchg c) (s'.setDchg c)
  /-- Pushing the same entry. -/
  push {s s' : State} (a : Word) : R s s' → ∀ (d : Fin 16), s.sp.val = d.val →
    R { s with stack := s.stack.set d a, sp := d.succ } { s' with stack := s'.stack.set d a, sp := d.succ }
  /-- Popping finds the same entry. -/
  pop {s s' : State} : R s s' → ∀ (d : Fin 16), s.sp.val = d.val + 1 →
    s'.stack[d] = s.stack[d] ∧ R { s with sp := d.castSucc } { s' with sp := d.castSucc }

section Unread
variable {R : State → State → Prop} (hR : Unread R) {s s' : State} (h : R s s')
include hR h

/-- The default advance. -/
theorem Unread.advance : R s.advance s'.advance := by
  obtain ⟨stack, st, dchg, rnd, draws, rfl⟩ := hR.agree h
  exact hR.update h _ _ _ _ _ _

/-- A skip on the same condition. -/
theorem Unread.skipIf (c : Bool) : R (skipIf c s) (skipIf c s') := by
  obtain ⟨stack, st, dchg, rnd, draws, rfl⟩ := hR.agree h
  rw [skipIf_eq, skipIf_eq]
  exact hR.update h _ _ _ _ _ _

/-- A store is checked alike and writes the same memory. -/
theorem Unread.storeBytes (base : Nat) (bytes : List Byte) :
    Alike R (Machine.orRaise (Machine.storeBytes s base bytes) .next)
      (Machine.orRaise (Machine.storeBytes s' base bytes) .next) := by
  obtain ⟨stack, st, dchg, rnd, draws, rfl⟩ := hR.agree h
  unfold Machine.storeBytes
  split_ifs
  · exact .fault _
  · exact .fault _
  · exact .next (hR.update h _ _ _ _ _ _)

/-- CALL pushes the same PC, or overflows in both states. -/
theorem Unread.exec_call (nnn : Imm12) : Alike R (exec (.call nnn) s) (exec (.call nnn) s') := by
  obtain ⟨stack, st, dchg, rnd, draws, rfl⟩ := hR.agree h
  by_cases hfull : s.sp = 16
  · have hfull' : { s with stack := stack, st := st, dchg := dchg, rnd := rnd, draws := draws }.sp = 16 := hfull
    rw [exec_call_of_full hfull, exec_call_of_full hfull']
    exact .fault _
  · have hd : s.sp.val = (⟨s.sp.val, by omega⟩ : Fin 16).val := rfl
    have hd' : { s with stack := stack, st := st, dchg := dchg, rnd := rnd, draws := draws }.sp.val =
      (⟨s.sp.val, by omega⟩ : Fin 16).val := rfl
    rw [exec_call_of_depth hd, exec_call_of_depth hd']
    exact .next (hR.update (hR.push s.pc h _ hd) _ _ _ _ _ _)

/-- RET pops the same entry, or underflows in both states. -/
theorem Unread.exec_ret : Alike R (exec .ret s) (exec .ret s') := by
  obtain ⟨stack, st, dchg, rnd, draws, rfl⟩ := hR.agree h
  by_cases hempty : s.sp = 0
  · have hempty' : { s with stack := stack, st := st, dchg := dchg, rnd := rnd, draws := draws }.sp = 0 := hempty
    rw [exec_ret_of_empty hempty, exec_ret_of_empty hempty']
    exact .fault _
  · have hd : s.sp.val = (⟨s.sp.val - 1, by omega⟩ : Fin 16).val + 1 := by
      show s.sp.val = s.sp.val - 1 + 1; omega
    have hd' : { s with stack := stack, st := st, dchg := dchg, rnd := rnd, draws := draws }.sp.val =
      (⟨s.sp.val - 1, by omega⟩ : Fin 16).val + 1 := hd
    obtain ⟨hentry, hpop⟩ := hR.pop h _ hd
    rw [exec_ret_of_depth hd, exec_ret_of_depth hd', hentry]
    exact .next (hR.update hpop _ _ _ _ _ _)

/-- LD Vx, K sees the same keys. -/
theorem Unread.exec_ldVxK (x : RegIx) : Alike R (exec (.ldVxK x) s) (exec (.ldVxK x) s') := by
  obtain ⟨stack, st, dchg, rnd, draws, rfl⟩ := hR.agree h
  rw [Machine.exec_ldVxK, Machine.exec_ldVxK]
  split
  · exact .next (hR.update h _ _ _ _ _ _)
  · exact .next (hR.update h _ _ _ _ _ _)

/-- No instruction but RND, which takes a draw, tells related states apart. -/
theorem Unread.exec {i : Instr} (hrnd : ∀ x nn, i = .rnd x nn → Alike R (exec i s) (exec i s')) :
    Alike R (exec i s) (exec i s') := by
  have hS := hR.storeBytes h
  have hK := hR.skipIf h
  have hcall := hR.exec_call h
  have hret := hR.exec_ret h
  have hwait := hR.exec_ldVxK h
  obtain ⟨stack, st, dchg, rnd, draws, rfl⟩ := hR.agree h
  cases i
  case rnd x nn => exact hrnd x nn rfl
  case call nnn => exact hcall nnn
  case ret => exact hret
  case nop => exact .next h
  case seImm | sneImm | seReg | sneReg => exact .next (hK _)
  case skp | sknp => exact .orRaise _ fun k => .next (hK _)
  case ldB | storeRegs => exact hS _ _
  case loadRegs => exact .orRaise _ fun bytes => .next (hR.update h _ _ _ _ _ _)
  case drw => exact .orRaise _ fun bytes => .next (hR.setDchg true (hR.update h _ _ _ _ _ _))
  case ldStVx => exact .next (hR.setSt _ h)
  case ldVxK x => exact hwait x
  all_goals exact .next (hR.update h _ _ _ _ _ _)
/-- No step but one of RND tells related states apart. -/
theorem Unread.step (hrnd : ∀ x nn, fetch s = .ok (.rnd x nn) →
    Alike R (Machine.exec (.rnd x nn) s.advance) (Machine.exec (.rnd x nn) s'.advance)) :
    Alike R (step s) (step s') := by
  have hfetch : fetch s' = fetch s := by
    obtain ⟨stack, st, dchg, rnd, draws, rfl⟩ := hR.agree h
    rfl
  cases hf : fetch s with
  | error f =>
    rw [step_of_fetch_error hf, step_of_fetch_error (hfetch.trans hf)]
    exact .fault f
  | ok i =>
    rw [step_of_fetch hf, step_of_fetch (hfetch.trans hf)]
    refine hR.exec (hR.advance h) fun x nn hi => ?_
    subst hi
    exact hrnd x nn hf
end Unread

/-! ### The draw -/

/-- The first state is the second but for the draw it carries, which is `r`. -/
def SameButDraw (r : Option Byte) (s s' : State) : Prop := s = { s' with rnd := r }

theorem unread_sameButDraw (r : Option Byte) : Unread (SameButDraw r) where
  agree := fun {s s'} h => ⟨s'.stack, s'.st, s'.dchg, s'.rnd, s'.draws, by rw [h]⟩
  update := fun h _ _ _ _ _ _ => by rw [h]; rfl
  setSt := fun _ h => by rw [h]; rfl
  setDchg := fun _ h => by rw [h]; rfl
  push := fun _ h _ _ => by rw [h]; rfl
  pop := fun h _ _ => by rw [h]; exact ⟨rfl, rfl⟩

/-- Settles O34: the step with the draw and the one without are alike but for the field that carries it, which is put
back. -/
theorem drawMattersToRndOnly : Obligations.DrawMattersToRndOnly := by
  intro s i b hf hi
  have hstart : SameButDraw s.rnd s { s with rnd := some b } := rfl
  have halike := (unread_sameButDraw s.rnd).step hstart fun x nn hf' =>
    absurd (Except.ok.inj (hf.symm.trans hf')) (hi x nn)
  unfold stepWith
  generalize step s = r, step { s with rnd := some b } = r' at halike
  cases halike with
  | next h => exact congrArg _ h.symm
  | fault | refused => rfl

/-! ### Faults change nothing and repeat (60_exceptions.md section 1) -/

theorem eq_fault_of_replyOf {r : Result} {f : Fault} (h : replyOf r = .fault f) : r = .fault f := by
  cases r with
  | fault => cases h; rfl
  | next | refused => cases h

/-- An operation that ends in a result and replies a fault leaves the state (R206). -/
theorem stateAfter_of_replyOf {s : State} {r : Result} {f : Fault} (h : replyOf r = .fault f) : stateAfter s r = s := by
  rw [eq_fault_of_replyOf h, stateAfter_fault]

/-- The fault of a step does not depend on the draw it is given (decision D10). -/
theorem stepWith_fault {s : State} {b : Byte} {f : Fault} (h : stepWith b s = .fault f) (b' : Byte) :
    stepWith b' s = .fault f := by
  cases hf : fetch s with
  | error g =>
    have hall : ∀ c, stepWith c s = .fault g := fun c => by
      rw [stepWith, step_of_fetch_error (s := { s with rnd := some c }) hf]
    rw [hall] at h ⊢
    exact h
  | ok i =>
    by_cases hi : ∃ x nn, i = .rnd x nn
    · obtain ⟨x, nn, rfl⟩ := hi
      rw [stepWith_rnd hf] at h
      cases h
    · have hi : ∀ x nn, i ≠ .rnd x nn := fun x nn hr => hi ⟨x, nn, hr⟩
      rw [drawMattersToRndOnly s i b hf hi] at h
      rw [drawMattersToRndOnly s i b' hf hi, h]

/-- Settles O47: the caller keeps the state of an operation that faults, and the fault of a step is the same for every
draw. -/
theorem faultsChangeNothingAndRepeat : Obligations.FaultsChangeNothingAndRepeat := by
  constructor
  · intro font op s f h
    cases op with
    | load | step | setKey => exact stateAfter_of_replyOf h
    | reset | tickTimer | display | soundTimer | displayChanged | ackDisplay => cases h
  · intro font s b b' f h
    have hstep := stepWith_fault (eq_fault_of_replyOf h) b'
    have hstay : (perform font (.step b) s).2 = s := stateAfter_of_replyOf h
    rw [hstay]
    simp only [perform, hstep, replyOf, stateAfter_fault]

/-! ### ST and the display-changed flag -/

/-- The second state is the first but for ST and the display-changed flag. -/
def SameButSound (s s' : State) : Prop := ∃ b c, s' = { s with st := b, dchg := c }

theorem unread_sameButSound : Unread SameButSound where
  agree := fun {s s'} h => by obtain ⟨b, c, rfl⟩ := h; exact ⟨s.stack, b, c, s.rnd, s.draws, rfl⟩
  update := fun h _ _ _ _ _ _ => by obtain ⟨b, c, rfl⟩ := h; exact ⟨b, c, rfl⟩
  setSt := fun a h => by obtain ⟨b, c, rfl⟩ := h; exact ⟨a, c, rfl⟩
  setDchg := fun a h => by obtain ⟨b, c, rfl⟩ := h; exact ⟨b, a, rfl⟩
  push := fun _ h _ _ => by obtain ⟨b, c, rfl⟩ := h; exact ⟨b, c, rfl⟩
  pop := fun h _ _ => by obtain ⟨b, c, rfl⟩ := h; exact ⟨rfl, b, c, rfl⟩

/-- RND takes the same draw. -/
theorem exec_rnd_sameButSound {s s' : State} (h : SameButSound s s') (x : RegIx) (nn : Byte) :
    Alike SameButSound (exec (.rnd x nn) s) (exec (.rnd x nn) s') := by
  obtain ⟨b, c, rfl⟩ := h
  rw [exec_rnd, exec_rnd]
  refine .next ⟨b, c, ?_⟩
  unfold takeDraw
  cases s.rnd <;> rfl

/-- Settles O48: a step does not tell apart states that differ in the two alone. -/
theorem soundTimerAndChangedFlagDoNotInterfere : Obligations.SoundTimerAndChangedFlagDoNotInterfere := by
  intro s b c
  have halike := unread_sameButSound.step (s := s) ⟨b, c, rfl⟩ fun x nn _ =>
    exec_rnd_sameButSound ⟨b, c, rfl⟩ x nn
  refine ⟨fun t ht => ?_, fun f hf => halike.fault_of_eq hf⟩
  obtain ⟨t', ht', b', c', rfl⟩ := halike.next_of_eq ht
  exact ⟨b', c', ht'⟩

/-! ### The stale stack entries -/

theorem sameButStale_iff {s s' : State} : SameButStale s s' ↔
    ∃ stack, s' = { s with stack := stack } ∧ ∀ k : Fin 16, k.val < s.sp.val → stack[k] = s.stack[k] := by
  constructor
  · exact fun ⟨h, hlive⟩ => ⟨s'.stack, h, hlive⟩
  · rintro ⟨stack, rfl, hlive⟩
    exact ⟨rfl, hlive⟩

/-- A push makes the entry it writes live, and a pop makes a live entry stale. -/
theorem unread_sameButStale : Unread SameButStale where
  agree := fun {s s'} h => ⟨s'.stack, s.st, s.dchg, s.rnd, s.draws, h.1⟩
  update := fun h _ _ _ _ _ _ => by
    obtain ⟨stack, rfl, hlive⟩ := sameButStale_iff.1 h
    exact ⟨rfl, hlive⟩
  setSt := fun _ h => by
    obtain ⟨stack, rfl, hlive⟩ := sameButStale_iff.1 h
    exact ⟨rfl, hlive⟩
  setDchg := fun _ h => by
    obtain ⟨stack, rfl, hlive⟩ := sameButStale_iff.1 h
    exact ⟨rfl, hlive⟩
  push := fun {s _} a h d hd => by
    obtain ⟨stack, rfl, hlive⟩ := sameButStale_iff.1 h
    refine ⟨rfl, fun k hk => ?_⟩
    have hk : k.val < d.val + 1 := hk
    show (stack.set d a)[k.val] = (s.stack.set d a)[k.val]
    rw [Vector.getElem_set, Vector.getElem_set]
    split
    · rfl
    · exact hlive k (by omega)
  pop := fun {s _} h d hd => by
    obtain ⟨stack, rfl, hlive⟩ := sameButStale_iff.1 h
    refine ⟨hlive d (by omega), rfl, fun k hk => hlive k ?_⟩
    have hk : k.val < d.val := hk
    omega

/-- RND takes the same draw. -/
theorem exec_rnd_sameButStale {s s' : State} (h : SameButStale s s') (x : RegIx) (nn : Byte) :
    Alike SameButStale (exec (.rnd x nn) s) (exec (.rnd x nn) s') := by
  obtain ⟨stack, rfl, hlive⟩ := sameButStale_iff.1 h
  rw [exec_rnd, exec_rnd]
  refine .next ?_
  unfold takeDraw
  cases s.rnd <;> exact ⟨rfl, hlive⟩

/-- Settles O49: a step does not tell apart states that differ in stale entries alone. -/
theorem staleStackEntriesDoNotInterfere : Obligations.StaleStackEntriesDoNotInterfere := by
  intro s s' h
  have halike := unread_sameButStale.step h fun x nn _ => exec_rnd_sameButStale (unread_sameButStale.advance h) x nn
  exact ⟨fun t ht => halike.next_of_eq ht, fun f hf => halike.fault_of_eq hf⟩

end Sys2Proof.Machine

/-! ## Proofs: the fault table (60_exceptions.md section 1) -/

namespace Sys2Proof.Machine

/-! ### The faults of the checked operations -/

/-- Where what follows a checked operation completes, the only fault is that of the operation. -/
theorem orRaise_eq_fault_iff {α : Type} {r : Except Fault α} {k : α → Result} (hk : ∀ a, ∃ t, k a = .next t)
    {f : Fault} : orRaise r k = .fault f ↔ r = .error f := by
  cases r with
  | ok a => obtain ⟨t, ht⟩ := hk a; simp [ht]
  | error g => simp

/-- Where what follows a checked operation completes, nothing is refused. -/
theorem orRaise_ne_refused {α : Type} {r : Except Fault α} {k : α → Result} (hk : ∀ a, ∃ t, k a = .next t)
    (m : Refusal) : orRaise r k ≠ .refused m := by
  cases r with
  | ok a => obtain ⟨t, ht⟩ := hk a; simp [ht]
  | error g => simp

section Checks
variable {s : State} {f : Fault}

theorem push_eq_error_iff {a : Word} : push a s = .error f ↔ s.sp = 16 ∧ f = .stackOverflow :=
  ⟨push_error, fun ⟨hs, hf⟩ => hf ▸ push_of_full hs a⟩

theorem pop_eq_error_iff : pop s = .error f ↔ s.sp = 0 ∧ f = .stackUnderflow :=
  ⟨pop_error, fun ⟨hs, hf⟩ => by simp [pop, hs, hf]⟩

theorem loadBytes_eq_error_iff {base count : Nat} : loadBytes s base count = .error f ↔
    0 < count ∧ 4095 < base + count - 1 ∧ f = .outOfBounds .read (BitVec.ofNat 16 (max base 4096)) := by
  rw [loadBytes_eq]
  split <;> rename_i h
  · have hlt : 4095 < base + count - 1 := by omega
    simp [h.1, hlt, lowestAbove, eq_comm]
  · simp only [reduceCtorEq, false_iff]
    omega

/-- A store reports the end of memory before the glyph table (R208); a block that starts in the glyph table and is as
short as these does not reach the end. -/
theorem storeBytes_eq_error_iff {base : Nat} {bytes : List Byte} (hpos : 0 < bytes.length) (hlen : bytes.length ≤ 16) :
    storeBytes s base bytes = .error f ↔
      (4095 < base + bytes.length - 1 ∧ f = .outOfBounds .write (BitVec.ofNat 16 (max base 4096))) ∨
      (base ≤ 79 ∧ f = .outOfBounds .glyphWrite (BitVec.ofNat 16 base)) := by
  rw [storeBytes_eq s base hpos]
  split_ifs with habove hglyph
  · have h1 : 4095 < base + bytes.length - 1 := by omega
    have h2 : ¬ base ≤ 79 := by omega
    simp [h1, h2, lowestAbove, eq_comm]
  · have h1 : ¬ 4095 < base + bytes.length - 1 := by omega
    have h2 : base ≤ 79 := by omega
    simp [h1, h2, eq_comm]
  · have h1 : ¬ 4095 < base + bytes.length - 1 := by omega
    have h2 : ¬ base ≤ 79 := by omega
    simp [h1, h2]

theorem keyOperand_eq_error_iff {b : Byte} :
    keyOperand b = .error f ↔ 15 < b.toNat ∧ f = .outOfBounds .keyIndex (b.setWidth 16) := by
  by_cases h : b.toNat < 16
  · have h1 : ¬ 15 < b.toNat := by omega
    simp [keyOperand_of_lt h, h1]
  · have h1 : 15 < b.toNat := by omega
    simp [keyOperand_of_ge h1, h1, eq_comm]
end Checks

/-! ### The faults of each instruction that can fault -/

section Faults
variable {s : State} {f : Fault} (x y : RegIx)

theorem exec_ret_eq_fault_iff : exec .ret s = .fault f ↔ s.sp = 0 ∧ f = .stackUnderflow := by
  rw [exec_ret, orRaise_eq_fault_iff fun _ => ⟨_, rfl⟩, pop_eq_error_iff]

theorem exec_call_eq_fault_iff (nnn : Imm12) : exec (.call nnn) s = .fault f ↔ s.sp = 16 ∧ f = .stackOverflow := by
  rw [exec_call, orRaise_eq_fault_iff fun _ => ⟨_, rfl⟩, push_eq_error_iff]

theorem exec_drw_eq_fault_iff (n : Nat) : exec (.drw x y n) s = .fault f ↔
    0 < n ∧ 4095 < s.i.toNat + n - 1 ∧ f = .outOfBounds .read (BitVec.ofNat 16 (max s.i.toNat 4096)) := by
  rw [exec_drw, execDrw, orRaise_eq_fault_iff fun _ => ⟨_, rfl⟩, loadBytes_eq_error_iff]
  rfl

theorem exec_loadRegs_eq_fault_iff : exec (.loadRegs x) s = .fault f ↔
    4095 < s.i.toNat + x.val ∧ f = .outOfBounds .read (BitVec.ofNat 16 (max s.i.toNat 4096)) := by
  rw [exec_loadRegs, orRaise_eq_fault_iff fun _ => ⟨_, rfl⟩, loadBytes_eq_error_iff]
  exact ⟨And.right, fun h => ⟨Nat.succ_pos _, h⟩⟩

theorem exec_ldB_eq_fault_iff : exec (.ldB x) s = .fault f ↔
    (4095 < s.i.toNat + 2 ∧ f = .outOfBounds .write (BitVec.ofNat 16 (max s.i.toNat 4096))) ∨
    (s.i.toNat ≤ 79 ∧ f = .outOfBounds .glyphWrite s.i) := by
  rw [exec_ldB, orRaise_eq_fault_iff fun _ => ⟨_, rfl⟩,
    storeBytes_eq_error_iff (by rw [length_bcdDigits]; decide) (by rw [length_bcdDigits]; decide)]
  simp [effAddr, length_bcdDigits]

theorem exec_storeRegs_eq_fault_iff : exec (.storeRegs x) s = .fault f ↔
    (4095 < s.i.toNat + x.val ∧ f = .outOfBounds .write (BitVec.ofNat 16 (max s.i.toNat 4096))) ∨
    (s.i.toNat ≤ 79 ∧ f = .outOfBounds .glyphWrite s.i) := by
  rw [exec_storeRegs, orRaise_eq_fault_iff fun _ => ⟨_, rfl⟩,
    storeBytes_eq_error_iff (by rw [length_regBlock]; omega) (by rw [length_regBlock]; omega)]
  simp [effAddr, length_regBlock]

theorem exec_skp_eq_fault_iff : exec (.skp x) s = .fault f ↔
    15 < (s.reg x).toNat ∧ f = .outOfBounds .keyIndex ((s.reg x).setWidth 16) := by
  rw [exec_skp, orRaise_eq_fault_iff fun _ => ⟨_, rfl⟩, keyOperand_eq_error_iff]

theorem exec_sknp_eq_fault_iff : exec (.sknp x) s = .fault f ↔
    15 < (s.reg x).toNat ∧ f = .outOfBounds .keyIndex ((s.reg x).setWidth 16) := by
  rw [exec_sknp, orRaise_eq_fault_iff fun _ => ⟨_, rfl⟩, keyOperand_eq_error_iff]
end Faults

/-- LD Vx, K completes, with a key or waiting (R184, decision D25). -/
theorem exec_ldVxK_completes (x : RegIx) (s : State) : ∃ t, exec (.ldVxK x) s = .next t := by
  rw [exec_ldVxK]
  split <;> exact ⟨_, rfl⟩

/-- Every instruction has a meaning. -/
theorem exec_ne_refused (i : Instr) (s : State) (m : Refusal) : exec i s ≠ .refused m := by
  cases i
  case ret | call | drw | skp | sknp | ldB | storeRegs | loadRegs => exact orRaise_ne_refused (fun _ => ⟨_, rfl⟩) m
  case ldVxK x => obtain ⟨t, ht⟩ := exec_ldVxK_completes x s; simp [ht]
  all_goals exact nofun

/-- Settles O11: the instructions that check something fault where the check fails, and the others complete. -/
theorem instructionsFaultExactlyAsListed : Obligations.InstructionsFaultExactlyAsListed := by
  refine fun i s => ⟨exec_ne_refused i s, fun f => ?_⟩
  cases i
  case ret => simp [exec_ret_eq_fault_iff]
  case call => simp [exec_call_eq_fault_iff]
  case drw x y n => simp [exec_drw_eq_fault_iff, and_assoc]
  case loadRegs => simp [exec_loadRegs_eq_fault_iff]
  case ldB => simp [exec_ldB_eq_fault_iff]
  case storeRegs => simp [exec_storeRegs_eq_fault_iff]
  case skp => simp [exec_skp_eq_fault_iff]
  case sknp => simp [exec_sknp_eq_fault_iff]
  case ldVxK x => obtain ⟨t, ht⟩ := exec_ldVxK_completes x s; simp [ht]
  all_goals exact iff_of_false nofun (by simp)

end Sys2Proof.Machine
